-- ==== Sys2Proof/Word.lean ====
section
/-! DEFINITION. The machine's word types (spec/00_scope.md R6, R7): bytes, the 16-bit values of the host's word
accessors, and the 32-bit addresses of the memory ports. -/

namespace Sys2Proof

/-- A byte: every register and every memory cell (R7). Bit 7 is the most significant. -/
abbrev Byte := BitVec 8

/-- A 16-bit value of `read_word` and `write_word` (20_memory.md R56). -/
abbrev HalfWord := BitVec 16

/-- A 32-bit unsigned address of a memory port (R6, R9). -/
abbrev Addr := BitVec 32

end Sys2Proof
end

