-- ==== Sys2Proof/Config.lean ====
section
/-! DEFINITION. The implementation parameters a model takes (spec/00_scope.md R6). A `Config` is a field of the
machine's State that no step changes, so a statement about every state holds for every value of the parameters
(log 2). Everything else is fixed by the rules. -/

namespace Sys2Proof

/-- The open parameters of R6: the two memory capacities in bytes (decisions D2, D3) and whether JGT and JLT read ACC
as a two's-complement byte (decision D4). -/
structure Config where
  imemSize : Nat
  dmemSize : Nat
  accCmpSigned : Bool
  deriving DecidableEq, Repr

/-- DESIGN CHOICE (log 2, unsafe for claims about `State.reset` alone): the parameters of the machine that
`State.reset` stands for. R6: "The examples use 256", and the default of `ACC_CMP_SIGNED` is `false`. -/
def Config.default : Config := { imemSize := 256, dmemSize := 256, accCmpSigned := false }

end Sys2Proof
end

