-- ==== Sys2Proof/Syntax.lean ====
section
/-! DEFINITION. The instructions: one constructor of `Instr` per row of spec/opcode_table.json, each with the one
operand byte every instruction carries (spec/30_encoding.md R80, R86). `Opcode` is the closed enumeration of 17
mnemonics (00_scope.md R2). -/

namespace Sys2Proof

/-- The 17 opcodes, in the order of R2. -/
inductive Opcode where
  | add | sub | mul | div | sta | lda
  | jmp | jeq | jne | jgt | jlt | jz | jnz
  | hlt | inp | out | dat
  deriving DecidableEq, Repr

/-- A decoded Instruction, "{opcode: Opcode, operand: one unsigned byte}" (R80). The operand is a DMEM address for the
arithmetic instructions, STA and LDA, an IMEM target for the jumps, and ignored by HLT, INP and OUT (R83); the
instruction carries it in every case. -/
inductive Instr where
  | add (operand : Byte)
  | sub (operand : Byte)
  | mul (operand : Byte)
  | div (operand : Byte)
  | sta (operand : Byte)
  | lda (operand : Byte)
  | jmp (operand : Byte)
  | jeq (operand : Byte)
  | jne (operand : Byte)
  | jgt (operand : Byte)
  | jlt (operand : Byte)
  | jz (operand : Byte)
  | jnz (operand : Byte)
  | hlt (operand : Byte)
  | inp (operand : Byte)
  | out (operand : Byte)
  | dat (operand : Byte)
  deriving DecidableEq, Repr

end Sys2Proof
end

