-- ==== Sys2Proof/WellFormed.lean ====
section
/-! DEFINITION. The checks the spec makes on syntax and on what the host hands the block: the parameters (00_scope.md
R6), the opcode byte (30_encoding.md R85), the operand (R86) and the length of an image (20_memory.md R67). -/

namespace Sys2Proof

/-- R6: each capacity is "Any integer 1 to 2^32−1". -/
def Config.wellFormed (c : Config) : Bool :=
  decide (1 ≤ c.imemSize ∧ c.imemSize < 2 ^ 32) && decide (1 ≤ c.dmemSize ∧ c.dmemSize < 2 ^ 32)

/-- R82, R85: the opcode bytes are 0x01 to 0x11; 0x00 and 0x12 to 0xFF spell no instruction. -/
def opcodeByteValid (b : Byte) : Bool := decide (0x01 ≤ b.toNat ∧ b.toNat ≤ 0x11)

/-- R86: "Every operand byte 0x00 to 0xFF is legal with every valid opcode; no operand value is reserved." The operand
is a byte by its type, so every term of `Instr` is well formed. -/
def Instr.wellFormed : Instr → Bool
  | .add _ | .sub _ | .mul _ | .div _ | .sta _ | .lda _ => true
  | .jmp _ | .jeq _ | .jne _ | .jgt _ | .jlt _ | .jz _ | .jnz _ => true
  | .hlt _ | .inp _ | .out _ | .dat _ => true

/-- R67: an image fits a memory of `size` bytes when its length is at most `size`. -/
def imageFits (size : Nat) (image : List Byte) : Bool := decide (image.length ≤ size)

end Sys2Proof
end

