-- ==== Sys2Proof/Decode.lean ====
section
/-! DEFINITION. The opcode map, the decoder and the encoder (spec/30_encoding.md R80 to R87). The byte values of SUB to
OUT are the spec's decision D1 (log 3). -/

namespace Sys2Proof

/-- Why bytes decode to no instruction. -/
inductive DecodeError where
  /-- R85: the opcode byte is 0x00 or 0x12 to 0xFF (R87's verdict `Invalid`). -/
  | invalidOpcode (b : Byte)
  /-- Fewer than the two bytes every instruction takes (R81). -/
  | truncated
  deriving DecidableEq, Repr

/-- R82, R87: `encode(o)`, the byte value of each opcode. -/
def Opcode.byte : Opcode → Byte
  | .add => 0x01#8
  | .sub => 0x02#8
  | .mul => 0x03#8
  | .div => 0x04#8
  | .sta => 0x05#8
  | .lda => 0x06#8
  | .jmp => 0x07#8
  | .jeq => 0x08#8
  | .jne => 0x09#8
  | .jgt => 0x0A#8
  | .jlt => 0x0B#8
  | .jz => 0x0C#8
  | .jnz => 0x0D#8
  | .hlt => 0x0E#8
  | .inp => 0x0F#8
  | .out => 0x10#8
  | .dat => 0x11#8

/-- R87: `decode(b)`, total on the 256 byte values, with the verdict `Invalid` outside 0x01 to 0x11. -/
def decodeOpcode (b : Byte) : Except DecodeError Opcode :=
  match b.toNat with
  | 0x01 => .ok .add
  | 0x02 => .ok .sub
  | 0x03 => .ok .mul
  | 0x04 => .ok .div
  | 0x05 => .ok .sta
  | 0x06 => .ok .lda
  | 0x07 => .ok .jmp
  | 0x08 => .ok .jeq
  | 0x09 => .ok .jne
  | 0x0A => .ok .jgt
  | 0x0B => .ok .jlt
  | 0x0C => .ok .jz
  | 0x0D => .ok .jnz
  | 0x0E => .ok .hlt
  | 0x0F => .ok .inp
  | 0x10 => .ok .out
  | 0x11 => .ok .dat
  | _ => .error (.invalidOpcode b)

/-- R80: the Instruction made of an opcode and the operand byte. -/
def Opcode.withOperand (o : Opcode) (operand : Byte) : Instr :=
  match o with
  | .add => .add operand
  | .sub => .sub operand
  | .mul => .mul operand
  | .div => .div operand
  | .sta => .sta operand
  | .lda => .lda operand
  | .jmp => .jmp operand
  | .jeq => .jeq operand
  | .jne => .jne operand
  | .jgt => .jgt operand
  | .jlt => .jlt operand
  | .jz => .jz operand
  | .jnz => .jnz operand
  | .hlt => .hlt operand
  | .inp => .inp operand
  | .out => .out operand
  | .dat => .dat operand

/-- The two bytes at an instruction's address, opcode first (R80), as an Instruction. -/
def decodeBytes (opcode operand : Byte) : Except DecodeError Instr :=
  match decodeOpcode opcode with
  | .ok o => .ok (o.withOperand operand)
  | .error e => .error e

/-- R80, R81: a decoder always takes exactly two bytes; it answers the instruction and the bytes that follow. -/
def decode : List Byte → Except DecodeError (Instr × List Byte)
  | opcode :: operand :: rest =>
    match decodeBytes opcode operand with
    | .ok i => .ok (i, rest)
    | .error e => .error e
  | _ => .error .truncated

/-- The opcode of an instruction. -/
def Instr.opcode : Instr → Opcode
  | .add _ => .add
  | .sub _ => .sub
  | .mul _ => .mul
  | .div _ => .div
  | .sta _ => .sta
  | .lda _ => .lda
  | .jmp _ => .jmp
  | .jeq _ => .jeq
  | .jne _ => .jne
  | .jgt _ => .jgt
  | .jlt _ => .jlt
  | .jz _ => .jz
  | .jnz _ => .jnz
  | .hlt _ => .hlt
  | .inp _ => .inp
  | .out _ => .out
  | .dat _ => .dat

/-- The operand byte of an instruction. -/
def Instr.operand : Instr → Byte
  | .add a | .sub a | .mul a | .div a | .sta a | .lda a => a
  | .jmp a | .jeq a | .jne a | .jgt a | .jlt a | .jz a | .jnz a => a
  | .hlt a | .inp a | .out a | .dat a => a

/-- R80, R82: the two bytes of an instruction, the opcode byte at the lower address. -/
def encode (i : Instr) : List Byte := [i.opcode.byte, i.operand]

/-- The bytes of an instruction given as a number in the numbering of spec/opcode_table.json (log 14): one 16-bit word
with the opcode in bits 15:8 and the operand in bits 7:0, stored big-endian (R80, 20_memory.md R56), the opcode byte
at the lower address. Only the low `nbits` bits count; the rest are 0. -/
def tableOpcodeByte (nbits w : Nat) : Byte := BitVec.ofNat 8 (w % 2 ^ nbits / 256)

/-- The operand byte of that number: its bits 7:0. -/
def tableOperandByte (nbits w : Nat) : Byte := BitVec.ofNat 8 (w % 2 ^ nbits)

/-- What the decoder reads from an instruction in the table's numbering; `none` where it refuses. -/
def decodeTableWord (nbits w : Nat) : Option Instr :=
  match decode [tableOpcodeByte nbits w, tableOperandByte nbits w] with
  | .ok (i, _) => some i
  | .error _ => none

end Sys2Proof
end

