-- ==== Sys2Proof/Machine/State.lean ====
section
/-! DEFINITION. The machine's state as plain data: every element of spec/10_state.md R20, the parameters of the machine
(00_scope.md R6), and the model's own fields that stand for the host (log 4, 5, 6). Then the reasons a step can stop,
and the state after power-on (70_reset_and_hazards.md R260). -/

namespace Sys2Proof.Machine

/-- The two address spaces of 20_memory.md R50. -/
inductive Space where
  | imem
  | dmem
  deriving DecidableEq, Repr

/-- PHASE, the state of the fetch-decode-execute machine (10_state.md R27). -/
inductive Phase where
  | loaded
  | fetch
  | decode
  | execute
  | halted
  | faulted
  deriving DecidableEq, Repr

/-- FAULT.kind (10_state.md R28, 60_exceptions.md R230); `FaultKind.code` gives the numeric code. -/
inductive FaultKind where
  | noFault
  | invalidOpcode
  | outOfBounds
  | divisionByZero
  deriving DecidableEq, Repr

/-- FAULT, the fault report (10_state.md R28). -/
structure FaultRecord where
  kind : FaultKind
  space : Space
  addr : Addr
  iaddr : Byte
  opcode : Byte
  operandValid : Bool
  operand : Byte
  deriving DecidableEq, Repr

/-- R35: the cleared report, "kind 0, every field 0". -/
def FaultRecord.clear : FaultRecord :=
  { kind := .noFault, space := .imem, addr := 0#32, iaddr := 0#8, opcode := 0#8, operandValid := false,
    operand := 0#8 }

/-- IR, the current instruction register (10_state.md R24): `valid`, and the opcode stored as its byte value with the
operand. -/
structure InstrReg where
  valid : Bool
  op : Byte
  operand : Byte
  deriving DecidableEq, Repr

/-- The empty IR as R35 and R123 write it. -/
def InstrReg.empty : InstrReg := { valid := false, op := 0#8, operand := 0#8 }

/-- What `start()` returns (40_cycle.md R121). -/
inductive RunOutcome where
  | halted
  | faulted (r : FaultRecord)
  deriving DecidableEq, Repr

/-- The byte registers the host reads through `get() -> byte` while the machine is stopped (10_state.md R33; R24 keeps
IR out of this list). -/
inductive HostReg where
  | pc
  | acc
  | fl
  | iaddr
  deriving DecidableEq, Repr

/-- The operations of the block's interface that the host calls in a stopped phase (00_scope.md R13,
70_reset_and_hazards.md R269). -/
inductive HostCommand where
  /-- R261 -/
  | loadProgram (image : List Byte)
  /-- R262 -/
  | loadData (image : List Byte)
  /-- R121 -/
  | start
  /-- R33: `get()` of PC, ACC, FL or IADDR -/
  | getRegister (r : HostReg)
  /-- R33: `set(byte)` of PC -/
  | setPc (b : Byte)
  /-- R33: `set(byte)` of ACC -/
  | setAcc (b : Byte)
  /-- R24: `get_instruction() -> optional Instruction` -/
  | getInstruction
  /-- R13: the status outputs RUNNING, PHASE and FAULT -/
  | getStatus
  /-- R68: `read(addr) -> byte` -/
  | read (space : Space) (addr : Addr)
  /-- R68: `write(addr, byte)` -/
  | write (space : Space) (addr : Addr) (v : Byte)
  /-- R68: `read_word(addr)` -/
  | readWord (space : Space) (addr : Addr)
  /-- R68: `write_word(addr, value)` -/
  | writeWord (space : Space) (addr : Addr) (v : HalfWord)
  deriving DecidableEq, Repr

/-- What the block gives back to the host for an operation. -/
inductive HostReply where
  | ok
  /-- R67, R68: a failed host operation; no machine fault. -/
  | outOfBounds (space : Space) (addr : Addr)
  /-- R121: `start()` returns. -/
  | returned (o : RunOutcome)
  | byte (b : Byte)
  | word (w : HalfWord)
  | instruction (i : Option Instr)
  | status (running : Bool) (phase : Phase) (fault : FaultRecord)
  deriving DecidableEq, Repr

/-- One port transfer, "recorded in order with the byte moved" (44_halt_io.md R203). -/
inductive PortEvent where
  | input (v : Byte)
  | output (v : Byte)
  deriving DecidableEq, Repr

/-- A memory: the bytes that differ from the power-on value, as (address, byte) cells with strictly rising addresses
(`Memory.wf`). What an unlisted address reads as is `Memory.unlistedByte`. -/
abbrev Memory := List Host.Cell

/-- The machine's state. The first ten fields after `cfg` are the elements of 10_state.md R20, in its order; the last
five are the model's own and hold the host's coming moves and what the host was given (log 4, 5, 6). -/
structure State where
  /-- the parameters of this machine (00_scope.md R6; log 2) -/
  cfg : Config
  /-- R21 -/
  pc : Byte
  /-- R22 -/
  acc : Byte
  /-- R23 -/
  fl : Byte
  /-- R24 -/
  ir : InstrReg
  /-- R25 -/
  iaddr : Byte
  /-- R26 -/
  running : Bool
  /-- R27 -/
  phase : Phase
  /-- R28 -/
  fault : FaultRecord
  /-- 20_memory.md R51 -/
  imem : Memory
  /-- 20_memory.md R52 -/
  dmem : Memory
  /-- the host's coming operations, one for each step of a stopped machine (log 4) -/
  commands : List HostCommand
  /-- what the host does at each coming poll of the input port: `none` leaves INP waiting, `some v` supplies v (log 5) -/
  inPort : List (Option Byte)
  /-- what the host does at each coming poll of the output port: `true` is `out_ready` (log 5) -/
  outPort : List Bool
  /-- the port transfers so far, oldest first (log 6) -/
  events : List PortEvent
  /-- what the block returned to the host so far, oldest first (log 6) -/
  replies : List HostReply
  deriving DecidableEq, Repr

/-- Why a step can stop with a fault. The spec's own faults (InvalidOpcode, OutOfBounds, DivisionByZero) are NOT here:
the machine takes them, into phase FAULTED with the report in FAULT (60_exceptions.md R232), and goes on to a next
state. -/
inductive Fault where
  /-- Raised by EXECUTE when IR holds no instruction. 40_cycle.md R124: "IR is always valid in EXECUTE", so no run
  reaches it; safe (log 12). -/
  | executeWithoutInstruction
  deriving DecidableEq, Repr

/-- Why a step can be refused. -/
inductive Refusal where
  /-- Answered by `exec` for an instruction that has no meaning yet; safe. No arm answers it. -/
  | notModelled (mnemonic : String)
  /-- Answered by EXECUTE of DAT, the spec's `Refuse(DatExecute)` (45_dat.md R221); safe: nothing can be proved of a
  program that executes DAT (log 11). -/
  | datExecute
  deriving DecidableEq, Repr

/-- The outcome of a step of this machine. -/
abbrev Result := Host.Outcome State Fault Refusal

/-- 70_reset_and_hazards.md R260, 10_state.md R35: the machine with parameters `c` at power-on. Both memories read 0x00
everywhere, so they list nothing. The host has done nothing yet. -/
def State.powerOn (c : Config) : State :=
  { cfg := c
    pc := 0x00#8
    acc := 0x00#8
    fl := 0x00#8
    ir := InstrReg.empty
    iaddr := 0x00#8
    running := false
    phase := .loaded
    fault := FaultRecord.clear
    imem := []
    dmem := []
    commands := []
    inPort := []
    outPort := []
    events := []
    replies := [] }

/-- The state after reset: power-on of the machine with the spec's example parameters (log 2). -/
def State.reset : State := State.powerOn Config.default

end Sys2Proof.Machine
end

