-- ==== Sys2Proof/Machine/Ops.lean ====
section
/-! DEFINITION. The shared operations over memory, registers, ports and faults: the memory primitives of
spec/00_scope.md R9, the register writes of the phases, fault entry (60_exceptions.md R232), the end of EXECUTE
(40_cycle.md R125) and the port transfers (44_halt_io.md R203). There is no return from a fault (60_exceptions.md
R236): only the host's `load_program` leaves FAULTED (Machine/HostInterface.lean). -/

namespace Sys2Proof.Machine

/-! ### Memory cells -/

/-- What an unlisted address reads as: the power-on value 0x00 of every memory byte (10_state.md R35; the spec's
decision D8, log 8). -/
def Memory.unlistedByte : Byte := 0x00#8

/-- The canonical form: addresses strictly rising, no cell equal to what an unlisted address reads as. -/
abbrev Memory.wf (m : Memory) : Prop :=
  m.Pairwise (fun x y => x.1 < y.1) ∧ ∀ c ∈ m, c.2 ≠ Memory.unlistedByte

/-- Every cell lies below `size`. -/
abbrev Memory.below (m : Memory) (size : Nat) : Prop := ∀ c ∈ m, c.1 < size

/-- The byte at address `a`. -/
def Memory.get : Memory → Nat → Byte
  | [], _ => Memory.unlistedByte
  | (b, v) :: m, a => if b = a then v else Memory.get m a

/-- The memory without a cell at `a`. -/
def Memory.erase (m : Memory) (a : Nat) : Memory := m.filter (fun c => decide (c.1 ≠ a))

/-- A cell put before the first cell of a higher address. -/
def Memory.insert : Memory → Nat → Byte → Memory
  | [], a, v => [(a, v)]
  | (b, w) :: m, a, v => if a < b then (a, v) :: (b, w) :: m else (b, w) :: Memory.insert m a v

/-- The memory with byte `v` at `a`. Writing the value an unlisted address reads as removes the cell. -/
def Memory.set (m : Memory) (a : Nat) (v : Byte) : Memory :=
  if v = Memory.unlistedByte then Memory.erase m a else Memory.insert (Memory.erase m a) a v

/-- The bytes of an image written from address `a` on (70_reset_and_hazards.md R261, R262). -/
def Memory.load (m : Memory) (a : Nat) : List Byte → Memory
  | [] => m
  | v :: image => Memory.load (Memory.set m a v) (a + 1) image

/-! ### The memories of a state -/

/-- The memory of an address space (20_memory.md R50). -/
def State.mem (s : State) : Space → Memory
  | .imem => s.imem
  | .dmem => s.dmem

/-- `SIZE(S)` of R9: the capacity of an address space (20_memory.md R51, R52). -/
def State.size (s : State) : Space → Nat
  | .imem => s.cfg.imemSize
  | .dmem => s.cfg.dmemSize

/-- The state with another content of one memory. -/
def State.setMem (s : State) (sp : Space) (m : Memory) : State :=
  match sp with
  | .imem => { s with imem := m }
  | .dmem => { s with dmem := m }

/-- 20_memory.md R53: an access of `n` bytes at `a` is in bounds unless `a + n − 1 >= SIZE(S)`; the comparison is on the
full address and never wraps. -/
def State.inBounds (s : State) (sp : Space) (a : Addr) (n : Nat) : Bool := decide (a.toNat + n - 1 < s.size sp)

/-- `MemRead(S, a, 1)` (R9, R55); `none` is OutOfBounds(S, a). -/
def State.readByte (s : State) (sp : Space) (a : Addr) : Option Byte :=
  if s.inBounds sp a 1 then some ((s.mem sp).get a.toNat) else none

/-- `MemWrite(S, a, 1, v)` (R9, R55); `none` is OutOfBounds(S, a), with nothing written. -/
def State.writeByte (s : State) (sp : Space) (a : Addr) (v : Byte) : Option State :=
  if s.inBounds sp a 1 then some (s.setMem sp ((s.mem sp).set a.toNat v)) else none

/-- `MemRead(S, a, 2)` (R9, R56): big-endian, the high byte at `a`. -/
def State.readWord (s : State) (sp : Space) (a : Addr) : Option HalfWord :=
  if s.inBounds sp a 2 then some ((s.mem sp).get a.toNat ++ (s.mem sp).get (a.toNat + 1)) else none

/-- `MemWrite(S, a, 2, v)` (R9, R56): `v[15:8]` at `a`, `v[7:0]` at `a + 1`. -/
def State.writeWord (s : State) (sp : Space) (a : Addr) (v : HalfWord) : Option State :=
  if s.inBounds sp a 2 then
    some (s.setMem sp (((s.mem sp).set a.toNat (v.extractLsb' 8 8)).set (a.toNat + 1) (v.extractLsb' 0 8)))
  else none

/-! ### Register writes -/

/-- `PC <- v`. -/
def State.setPc (s : State) (v : Byte) : State := { s with pc := v }

/-- `ACC <- v`. -/
def State.setAcc (s : State) (v : Byte) : State := { s with acc := v }

/-- `IADDR <- v`. -/
def State.setIaddr (s : State) (v : Byte) : State := { s with iaddr := v }

/-- `FL <- v`. -/
def State.setFl (s : State) (v : Byte) : State := { s with fl := v }

/-- `IR <- r`. -/
def State.setIr (s : State) (r : InstrReg) : State := { s with ir := r }

/-- `RUNNING <- b; PHASE <- p`: the control state. -/
def State.setControl (s : State) (b : Bool) (p : Phase) : State := { s with running := b, phase := p }

/-- `FAULT <- r`. -/
def State.setFault (s : State) (r : FaultRecord) : State := { s with fault := r }

/-- An operation's result, given back to the host. -/
def State.reply (s : State) (r : HostReply) : State := { s with replies := s.replies ++ [r] }

/-- A port transfer, added to the history of the run. -/
def State.record (s : State) (e : PortEvent) : State := { s with events := s.events ++ [e] }

/-- RUNNING = 1 exactly in these phases (10_state.md R27). -/
def Phase.isRunning : Phase → Bool
  | .fetch | .decode | .execute => true
  | .loaded | .halted | .faulted => false

/-! ### The end of EXECUTE -/

/-- 40_cycle.md R125, every instruction but HLT: the machine goes on to FETCH. -/
def State.endExecute (s : State) : State := { s with phase := .fetch }

/-- 44_halt_io.md R200 and R125: `RUNNING <- 0; PHASE <- HALTED`, and `start()` returns Halted (R121). -/
def State.halt (s : State) : State := (s.setControl false .halted).reply (.returned .halted)

/-! ### Fault entry -/

/-- FAULT.kind's code (10_state.md R28). -/
def FaultKind.code : FaultKind → BitVec 2
  | .noFault => 0#2
  | .invalidOpcode => 1#2
  | .outOfBounds => 2#2
  | .divisionByZero => 3#2

/-- FAULT.space's code (R28). -/
def Space.code : Space → BitVec 1
  | .imem => 0#1
  | .dmem => 1#1

/-- 60_exceptions.md R232, fault entry: FAULT is written with IADDR as the instruction's address, RUNNING is cleared,
PHASE becomes FAULTED, and `start()` returns Faulted(FAULT) to the host (40_cycle.md R121). "Nothing else is saved and
nothing else changes." The operand is `none` where it was not read before the fault (R28). -/
def State.raise (s : State) (k : FaultKind) (sp : Space) (a : Addr) (opcode : Byte) (operand : Option Byte) : State :=
  let r : FaultRecord :=
    { kind := k, space := sp, addr := a, iaddr := s.iaddr, opcode := opcode, operandValid := operand.isSome,
      operand := operand.getD 0x00#8 }
  ((s.setFault r).setControl false .faulted).reply (.returned (.faulted r))

/-- R230, the opcode fetch row: FAULT.opcode and the operand fields are 0. -/
def State.raiseOpcodeFetch (s : State) (a : Addr) : State := s.raise .outOfBounds .imem a 0x00#8 none

/-- R230, the operand fetch row: FAULT.opcode is FL, and no operand was read. -/
def State.raiseOperandFetch (s : State) (a : Addr) : State := s.raise .outOfBounds .imem a s.fl none

/-- R230, the InvalidOpcode row: FAULT.opcode is FL, the operand byte was read. -/
def State.raiseInvalidOpcode (s : State) (operand : Byte) : State :=
  s.raise .invalidOpcode .imem 0#32 s.fl (some operand)

/-- R230, the data row: the opcode byte and the operand of the instruction that made the access (log 13). -/
def State.raiseDataAccess (s : State) (opcode operand : Byte) (a : Addr) : State :=
  s.raise .outOfBounds .dmem a opcode (some operand)

/-- R230, the DivisionByZero row. -/
def State.raiseDivisionByZero (s : State) (opcode operand : Byte) : State :=
  s.raise .divisionByZero .imem 0#32 opcode (some operand)

/-! ### The ports -/

/-- What one poll of a waiting port gave. -/
inductive Poll (α : Type) where
  | waiting
  | done (v : α)
  deriving DecidableEq, Repr

/-- `InRead()` (00_scope.md R10, 44_halt_io.md R203), one poll: the state with that poll spent and the byte, if the host
supplied one. A host that has no polls left never answers. -/
def State.inRead (s : State) : State × Poll Byte :=
  match s.inPort with
  | [] => (s, .waiting)
  | none :: rest => ({ s with inPort := rest }, .waiting)
  | some v :: rest => (({ s with inPort := rest } : State).record (.input v), .done v)

/-- `OutWrite(v)` (R10, R203), one poll: the byte moves when the host is ready. -/
def State.outWrite (s : State) (v : Byte) : State × Poll Unit :=
  match s.outPort with
  | [] => (s, .waiting)
  | false :: rest => ({ s with outPort := rest }, .waiting)
  | true :: rest => (({ s with outPort := rest } : State).record (.output v), .done ())

end Sys2Proof.Machine
end

