-- ==== Sys2Proof/Machine/Operands.lean ====
section
/-! DEFINITION. The operand forms (spec/30_encoding.md R83, R84; 42_load_store.md R172; 43_jumps.md R180): direct data
address, absolute jump target, and the addresses of the two bytes of an instruction (20_memory.md R58). -/

namespace Sys2Proof.Machine

/-- `zext_32(v)` (00_scope.md R7). -/
def zext32 (v : Byte) : Addr := v.setWidth 32

/-- R172: the effective address of ADD, SUB, MUL, DIV, STA and LDA is `zext_32(IR.operand)`, a DMEM address. -/
def dataAddress (operand : Byte) : Addr := zext32 operand

/-- R180: a jump's target is the operand byte itself, an IMEM address. -/
def jumpTarget (operand : Byte) : Byte := operand

/-- R58: the opcode byte is fetched at `zext_32(IADDR)`. -/
def opcodeAddress (iaddr : Byte) : Addr := zext32 iaddr

/-- R58, 40_cycle.md R123: the operand byte is fetched at `zext_32(IADDR) + 1`, 1 to 256, never wrapped to 8 bits (the
spec's decision D6, log 9). -/
def operandAddress (iaddr : Byte) : Addr := zext32 iaddr + 1#32

/-- 40_cycle.md R122: `(PC + 2) mod 256` (the spec's decision D5, log 9). -/
def nextPc (pc : Byte) : Byte := BitVec.ofNat 8 ((pc.toNat + 2) % 256)

/-- The data byte an arithmetic instruction or LDA reads; `none` is OutOfBounds(DMEM, operand). -/
def State.readData (s : State) (operand : Byte) : Option Byte := s.readByte .dmem (dataAddress operand)

/-- The data byte STA writes; `none` is OutOfBounds(DMEM, operand). -/
def State.writeData (s : State) (operand v : Byte) : Option State := s.writeByte .dmem (dataAddress operand) v

end Sys2Proof.Machine
end

