-- ==== Sys2Proof/Machine/Flags.lean ====
section
/-! DEFINITION. The conditions of the jumps. The machine has no flags: "Conditional jumps test ACC itself at the time
they execute" (spec/10_state.md R30), so the conditions of 43_jumps.md R181 are computed from ACC and the parameter
`ACC_CMP_SIGNED`. -/

namespace Sys2Proof.Machine

/-- `s8(v)` (00_scope.md R7): the two's-complement reading of a byte. -/
def s8 (v : Byte) : Int := if v.toNat < 128 then (v.toNat : Int) else (v.toNat : Int) - 256

/-- The jump conditions of 30_encoding.md R88. -/
inductive JumpCond where
  | never
  | always
  | zero
  | nonzero
  | gt
  | lt
  deriving DecidableEq, Repr

/-- R181: ACC > 0, read as `ACC_CMP_SIGNED` says. -/
def accPositive (signed : Bool) (acc : Byte) : Bool :=
  if signed then decide (0 < s8 acc) else decide (0 < acc.toNat)

/-- R181: ACC < 0, read as `ACC_CMP_SIGNED` says; an unsigned ACC never is. -/
def accNegative (signed : Bool) (acc : Byte) : Bool :=
  if signed then decide (s8 acc < 0) else decide (acc.toNat < 0)

/-- R181: `taken(cond, ACC)`. -/
def taken (cond : JumpCond) (signed : Bool) (acc : Byte) : Bool :=
  match cond with
  | .never => false
  | .always => true
  | .zero => decide (acc = 0x00#8)
  | .nonzero => decide (acc ≠ 0x00#8)
  | .gt => accPositive signed acc
  | .lt => accNegative signed acc

end Sys2Proof.Machine
end

