-- ==== Sys2Proof/Machine/Alu.lean ====
section
/-! DEFINITION. The 8-bit ALU (spec/41_arithmetic.md R150). -/

namespace Sys2Proof.Machine

/-- The ALU's operations. -/
inductive AluOp where
  | add
  | sub
  | mul
  | div
  deriving DecidableEq, Repr

/-- R150: each result is computed exactly on the unsigned values and reduced mod 256. DIV is the unsigned quotient
rounded toward zero (the spec's decision D7, log 10); its zero divisor is caught before (R154). -/
def alu (op : AluOp) (x y : Byte) : Byte :=
  match op with
  | .add => BitVec.ofNat 8 ((x.toNat + y.toNat) % 256)
  | .sub => BitVec.ofNat 8 ((x.toNat + 256 - y.toNat) % 256)
  | .mul => BitVec.ofNat 8 (x.toNat * y.toNat % 256)
  | .div => BitVec.ofNat 8 (x.toNat / y.toNat)

end Sys2Proof.Machine
end

