-- ==== Sys2Proof/Machine/Arithmetic.lean ====
section
/-! DEFINITION. ADD, SUB, MUL and DIV (spec/41_arithmetic.md R151 to R154). Each meaning is the EXECUTE phase: PC is
already the address of the next instruction (40_cycle.md R124). -/

namespace Sys2Proof.Machine

/-- What ADD, SUB and MUL share: `m <- MemRead(DMEM, operand)`, faulting OutOfBounds with ACC unchanged, then
`ACC <- alu(op, ACC, m)`. -/
def executeAlu (op : AluOp) (opcode operand : Byte) (s : State) : State :=
  match s.readData operand with
  | none => s.raiseDataAccess opcode operand (dataAddress operand)
  | some m => (s.setAcc (alu op s.acc m)).endExecute

/-- R151. -/
def execAdd (operand : Byte) (s : State) : Result := .next (executeAlu .add Opcode.add.byte operand s)

/-- R152. -/
def execSub (operand : Byte) (s : State) : Result := .next (executeAlu .sub Opcode.sub.byte operand s)

/-- R153. -/
def execMul (operand : Byte) (s : State) : Result := .next (executeAlu .mul Opcode.mul.byte operand s)

/-- R154: the bounds check first (the spec's decision D12), then the zero divisor, then the quotient. -/
def execDiv (operand : Byte) (s : State) : Result :=
  match s.readData operand with
  | none => .next (s.raiseDataAccess Opcode.div.byte operand (dataAddress operand))
  | some m =>
    if m = 0x00#8 then .next (s.raiseDivisionByZero Opcode.div.byte operand)
    else .next (s.setAcc (alu .div s.acc m)).endExecute

end Sys2Proof.Machine
end

