-- ==== Sys2Proof/Machine/Dat.lean ====
section
/-! DEFINITION. DAT (spec/45_dat.md R220, R221). It decodes like any other instruction, and FETCH and DECODE run; its
EXECUTE phase has no meaning in the spec. -/

namespace Sys2Proof.Machine

/-- R221: `Refuse(DatExecute)`: "no defined effect; the model takes no step" (the spec's decision D15, log 11). -/
def execDat (_operand : Byte) (_s : State) : Result := .refused .datExecute

end Sys2Proof.Machine
end

