-- ==== Sys2Proof/Machine/HaltIo.lean ====
section
/-! DEFINITION. HLT, INP and OUT (spec/44_halt_io.md R200 to R203), each the EXECUTE phase of its instruction. Their
operand byte is ignored (30_encoding.md R83, the spec's decision D14; log 15). A port that does not answer leaves the
machine in EXECUTE: "While a request waits, no other state changes and PHASE stays EXECUTE" (R203). -/

namespace Sys2Proof.Machine

/-- R200. -/
def execHlt (_operand : Byte) (s : State) : Result := .next s.halt

/-- R201: one poll of the input port; a supplied byte goes into ACC. -/
def execInp (_operand : Byte) (s : State) : Result :=
  match s.inRead with
  | (t, .waiting) => .next t
  | (t, .done v) => .next (t.setAcc v).endExecute

/-- R202: one poll of the output port; ACC goes out as it is. -/
def execOut (_operand : Byte) (s : State) : Result :=
  match s.outWrite s.acc with
  | (t, .waiting) => .next t
  | (t, .done _) => .next t.endExecute

end Sys2Proof.Machine
end

