-- ==== Sys2Proof/Machine/Jumps.lean ====
section
/-! DEFINITION. The seven jumps (spec/43_jumps.md R180 to R189), each the EXECUTE phase of its instruction. No jump
faults in EXECUTE: a target outside IMEM faults at the next FETCH (R189). -/

namespace Sys2Proof.Machine

/-- R180, the jump target resolver: a taken jump writes the operand to PC, else PC keeps `(IADDR + 2) mod 256`. -/
def resolve (cond : JumpCond) (operand : Byte) (s : State) : State :=
  (if taken cond s.cfg.accCmpSigned s.acc then s.setPc (jumpTarget operand) else s).endExecute

/-- R182. -/
def execJmp (operand : Byte) (s : State) : Result := .next (resolve .always operand s)

/-- R183. -/
def execJeq (operand : Byte) (s : State) : Result := .next (resolve .zero operand s)

/-- R184. -/
def execJne (operand : Byte) (s : State) : Result := .next (resolve .nonzero operand s)

/-- R185. -/
def execJgt (operand : Byte) (s : State) : Result := .next (resolve .gt operand s)

/-- R186. -/
def execJlt (operand : Byte) (s : State) : Result := .next (resolve .lt operand s)

/-- R187: the same effect as JEQ, with its own opcode byte. -/
def execJz (operand : Byte) (s : State) : Result := .next (resolve .zero operand s)

/-- R188: the same effect as JNE, with its own opcode byte. -/
def execJnz (operand : Byte) (s : State) : Result := .next (resolve .nonzero operand s)

end Sys2Proof.Machine
end

