-- ==== Sys2Proof/Machine/LoadStore.lean ====
section
/-! DEFINITION. STA and LDA (spec/42_load_store.md R170, R171), each the EXECUTE phase of its instruction. -/

namespace Sys2Proof.Machine

/-- R170: `DMEM[operand] <- ACC`; out of bounds, nothing is written. -/
def execSta (operand : Byte) (s : State) : Result :=
  match s.writeData operand s.acc with
  | none => .next (s.raiseDataAccess Opcode.sta.byte operand (dataAddress operand))
  | some t => .next t.endExecute

/-- R171: `ACC <- DMEM[operand]`; out of bounds, ACC is unchanged. -/
def execLda (operand : Byte) (s : State) : Result :=
  match s.readData operand with
  | none => .next (s.raiseDataAccess Opcode.lda.byte operand (dataAddress operand))
  | some m => .next (s.setAcc m).endExecute

end Sys2Proof.Machine
end

