-- ==== Sys2Proof/Machine/Dispatch.lean ====
section
/-! DEFINITION. The dispatch of EXECUTE (spec/40_cycle.md R124): each instruction to exactly one meaning. -/

namespace Sys2Proof.Machine

def exec (i : Instr) (s : State) : Host.Outcome State Fault Refusal :=
  match i with
  | .add operand => Sys2Proof.Machine.execAdd operand s
  | .sub operand => Sys2Proof.Machine.execSub operand s
  | .mul operand => Sys2Proof.Machine.execMul operand s
  | .div operand => Sys2Proof.Machine.execDiv operand s
  | .sta operand => Sys2Proof.Machine.execSta operand s
  | .lda operand => Sys2Proof.Machine.execLda operand s
  | .jmp operand => Sys2Proof.Machine.execJmp operand s
  | .jeq operand => Sys2Proof.Machine.execJeq operand s
  | .jne operand => Sys2Proof.Machine.execJne operand s
  | .jgt operand => Sys2Proof.Machine.execJgt operand s
  | .jlt operand => Sys2Proof.Machine.execJlt operand s
  | .jz operand => Sys2Proof.Machine.execJz operand s
  | .jnz operand => Sys2Proof.Machine.execJnz operand s
  | .hlt operand => Sys2Proof.Machine.execHlt operand s
  | .inp operand => Sys2Proof.Machine.execInp operand s
  | .out operand => Sys2Proof.Machine.execOut operand s
  | .dat operand => Sys2Proof.Machine.execDat operand s

end Sys2Proof.Machine
end

