-- ==== Sys2Proof/Machine/HostInterface.lean ====
section
/-! DEFINITION. What the host does to a stopped machine (spec/00_scope.md R13, 70_reset_and_hazards.md R269):
`load_program`, `load_data`, `start()`, `get`/`set`, `get_instruction`, the status, and the inspection port on both
memories. The host may do none of this while RUNNING = 1 (10_state.md R33), and the step looks at `commands` only in
LOADED, HALTED and FAULTED. Also the port signals a host sees (44_halt_io.md R203). -/

namespace Sys2Proof.Machine

/-- The instruction IR holds, `get_instruction() -> optional Instruction` (10_state.md R24): none when IR is empty. -/
def InstrReg.instruction (r : InstrReg) : Option Instr :=
  if r.valid then
    match decodeBytes r.op r.operand with
    | .ok i => some i
    | .error _ => none
  else none

/-- A capacity as the address of an OutOfBounds report (20_memory.md R67). -/
def sizeAddress (n : Nat) : Addr := BitVec.ofNat 32 n

/-- 70_reset_and_hazards.md R261: bytes 0 to n−1 of IMEM are the image, PC <- 0, RUNNING <- 0, PHASE <- LOADED, FAULT is
cleared, everything else is kept (the spec's decision D29). An image longer than IMEM changes nothing (20_memory.md
R67). -/
def State.loadProgram (s : State) (image : List Byte) : State :=
  if imageFits s.cfg.imemSize image then
    ((((s.setMem .imem (s.imem.load 0 image)).setPc 0x00#8).setControl false .loaded).setFault
      FaultRecord.clear).reply .ok
  else s.reply (.outOfBounds .imem (sizeAddress s.cfg.imemSize))

/-- R262: bytes 0 to n−1 of DMEM are the image; every register, PHASE and FAULT keep their values. An image longer than
DMEM changes nothing. -/
def State.loadData (s : State) (image : List Byte) : State :=
  if imageFits s.cfg.dmemSize image then (s.setMem .dmem (s.dmem.load 0 image)).reply .ok
  else s.reply (.outOfBounds .dmem (sizeAddress s.cfg.dmemSize))

/-- 40_cycle.md R121: in LOADED the machine runs, and `start()` returns when RUNNING falls; in HALTED and FAULTED it
"changes nothing and returns the current outcome at once". -/
def State.start (s : State) : State :=
  match s.phase with
  | .halted => s.reply (.returned .halted)
  | .faulted => s.reply (.returned (.faulted s.fault))
  | .loaded => s.setControl true .fetch
  | .fetch | .decode | .execute => s

/-- The byte register a `get()` reads (10_state.md R33). -/
def State.hostRegister (s : State) : HostReg → Byte
  | .pc => s.pc
  | .acc => s.acc
  | .fl => s.fl
  | .iaddr => s.iaddr

/-- The reply to a read through the inspection port (20_memory.md R68). -/
def readReply (sp : Space) (a : Addr) : Option Byte → HostReply
  | some b => .byte b
  | none => .outOfBounds sp a

/-- The reply to a word read through the inspection port (R68). -/
def readWordReply (sp : Space) (a : Addr) : Option HalfWord → HostReply
  | some w => .word w
  | none => .outOfBounds sp a

/-- The result of a write through the inspection port: the new state and Ok, or no change and OutOfBounds (R68). -/
def State.hostWrite (s : State) (sp : Space) (a : Addr) : Option State → State
  | some t => t.reply .ok
  | none => s.reply (.outOfBounds sp a)

/-- One host operation on a stopped machine. -/
def State.hostCommand (s : State) : HostCommand → State
  | .loadProgram image => s.loadProgram image
  | .loadData image => s.loadData image
  | .start => s.start
  | .getRegister r => s.reply (.byte (s.hostRegister r))
  | .setPc b => (s.setPc b).reply .ok
  | .setAcc b => (s.setAcc b).reply .ok
  | .getInstruction => s.reply (.instruction s.ir.instruction)
  | .getStatus => s.reply (.status s.running s.phase s.fault)
  | .read sp a => s.reply (readReply sp a (s.readByte sp a))
  | .write sp a v => s.hostWrite sp a (s.writeByte sp a v)
  | .readWord sp a => s.reply (readWordReply sp a (s.readWord sp a))
  | .writeWord sp a v => s.hostWrite sp a (s.writeWord sp a v)

/-- A stopped machine takes the host's next operation; with none left nothing changes (60_exceptions.md R243: "Nothing
inside the block leaves HALTED or FAULTED"; log 22). -/
def State.hostMove (s : State) : State :=
  match s.commands with
  | [] => s
  | c :: rest => ({ s with commands := rest } : State).hostCommand c

/-- `in_req = 1` while INP is in EXECUTE (44_halt_io.md R203). -/
def State.inReq (s : State) : Bool :=
  decide (s.phase = .execute) && s.ir.valid && decide (s.ir.op = Opcode.inp.byte)

/-- `out_valid = 1` while OUT is in EXECUTE (R203). -/
def State.outValid (s : State) : Bool :=
  decide (s.phase = .execute) && s.ir.valid && decide (s.ir.op = Opcode.out.byte)

/-- `out_data[7:0] = ACC` while `out_valid = 1` (R203). -/
def State.outData (s : State) : Byte := s.acc

end Sys2Proof.Machine
end

