-- ==== Sys2Proof/Machine/Cycle.lean ====
section
/-! DEFINITION. The fetch-decode-execute state machine (spec/40_cycle.md): the phases FETCH (R122), DECODE (R123) and
EXECUTE (R124); the transitions of R120 (`phaseStep`), each of which is one step of the machine; and, made of them, one
whole cycle (`cycle`, R127), in whose terms the rules about a cycle are stated. -/

namespace Sys2Proof.Machine

/-- R122: `IADDR <- PC`, the opcode byte into FL, `PC <- (PC + 2) mod 256`, on to DECODE. Out of bounds, PC and FL are
unchanged. -/
def fetchPhase (s : State) : State :=
  let t := s.setIaddr s.pc
  match t.readByte .imem (opcodeAddress t.iaddr) with
  | none => t.raiseOpcodeFetch (opcodeAddress t.iaddr)
  | some b => { (t.setFl b).setPc (nextPc s.pc) with phase := .decode }

/-- R123: the operand byte is read before the opcode is checked (the spec's decision D12); an invalid opcode leaves IR
empty (D11). -/
def decodePhase (s : State) : State :=
  match s.readByte .imem (operandAddress s.iaddr) with
  | none => s.raiseOperandFetch (operandAddress s.iaddr)
  | some b =>
    match decodeOpcode s.fl with
    | .error _ => (s.setIr InstrReg.empty).raiseInvalidOpcode b
    | .ok _ => { s.setIr { valid := true, op := s.fl, operand := b } with phase := .execute }

/-- R124: EXECUTE dispatches on IR to one instruction rule. "IR is always valid in EXECUTE"; a state where it is not is
reached by no run and stops (log 12). -/
def executePhase (s : State) : Result :=
  match s.ir.instruction with
  | none => .fault .executeWithoutInstruction
  | some i => exec i s

/-- One transition of R120, "Each row is one step of the machine": a host operation in a stopped phase, or one phase of
the cycle. In EXECUTE it is the instruction's rule, which stays in EXECUTE while a port waits. -/
def phaseStep (s : State) : Result :=
  match s.phase with
  | .loaded | .halted | .faulted => .next s.hostMove
  | .fetch => .next (fetchPhase s)
  | .decode => .next (decodePhase s)
  | .execute => executePhase s

/-- EXECUTE, if the phase before led there. -/
def thenExecute (s : State) : Result := if s.phase = .execute then executePhase s else .next s

/-- DECODE and what follows, if the phase before led there. -/
def thenDecode (s : State) : Result := if s.phase = .decode then thenExecute (decodePhase s) else .next s

/-- R127: the rest of the current instruction's cycle, up to a fault, the instruction's end, or a port that did not
answer; one, two or three transitions. The machine's step does not use it. -/
def cycle (s : State) : Result :=
  match s.phase with
  | .loaded | .halted | .faulted => .next s.hostMove
  | .fetch => thenDecode (fetchPhase s)
  | .decode => thenExecute (decodePhase s)
  | .execute => executePhase s

/-- From a state in FETCH, the state of the same cycle before its last transition: in EXECUTE of the instruction at PC;
or, where FETCH or DECODE faults, in that phase. -/
def State.beforeLastPhase (s : State) : State :=
  if (fetchPhase s).phase = .decode then
    if (decodePhase (fetchPhase s)).phase = .execute then decodePhase (fetchPhase s) else fetchPhase s
  else s

/-- An instruction's two bytes put where FETCH and DECODE will read them. -/
def State.placeBytes (s : State) (opcode operand : Byte) : State :=
  s.setMem .imem
    ((s.imem.set (opcodeAddress s.pc).toNat opcode).set (operandAddress s.pc).toNat operand)

end Sys2Proof.Machine
end

