-- ==== Sys2Proof/Machine/Step.lean ====
section
/-! DEFINITION. The machine's step, and an instruction stored where the step runs it next. -/

namespace Sys2Proof.Machine

/-- One step: one transition of spec/40_cycle.md R120, "Each row is one step of the machine". -/
def step (s : State) : Host.Outcome State Fault Refusal := phaseStep s

/-- `s` with the instruction of the table word `w` (spec/opcode_table.json's numbering, log 14) in IMEM at PC and
PC + 1, running, and brought by its own FETCH and DECODE to where the VERY NEXT step runs exactly that instruction
(R120: FETCH, DECODE and EXECUTE are a step each; log 7). An instruction that FETCH or DECODE faults on stands before
the step that faults. It is for the host's `load_program` and `start()` (70_reset_and_hazards.md R264). -/
def State.withFetchWord (s : State) (nbits w : Nat) : State :=
  ((s.placeBytes (tableOpcodeByte nbits w) (tableOperandByte nbits w)).setControl true .fetch).beforeLastPhase

end Sys2Proof.Machine
end

