-- ==== Sys2Proof/Machine/Control.lean ====
section
/-! DEFINITION. The block's wiring: the decoder's control signals (spec/30_encoding.md R88), the datapath they drive, and
the memory arbiter's grant (20_memory.md R61). It is a second description of EXECUTE, made of signals and not of
instruction rules. R88: "Its observable effect is exactly that of the instruction rules it names, and where the two
differ the instruction rule governs": the step runs the instruction rules (Machine/Dispatch.lean), and nothing of the
machine's behaviour is taken from this file. -/

namespace Sys2Proof.Machine

/-- Where ACC's next value comes from (R88's `acc_src`). -/
inductive AccSource where
  | alu
  | dmem
  | input
  deriving DecidableEq, Repr

/-- R88's columns. `accWe` is the table's 1 of the DIV row, whose "unless divisor = 0" is the datapath's. -/
structure ControlSignals where
  dmemRd : Bool
  dmemWr : Bool
  aluOp : Option AluOp
  accWe : Bool
  accSrc : Option AccSource
  jumpCond : JumpCond
  halt : Bool
  inReq : Bool
  outReq : Bool
  deriving DecidableEq, Repr

/-- The signals of an instruction that does nothing in EXECUTE, which each row changes. -/
def ControlSignals.idle : ControlSignals :=
  { dmemRd := false, dmemWr := false, aluOp := none, accWe := false, accSrc := none, jumpCond := .never,
    halt := false, inReq := false, outReq := false }

/-- The row of an arithmetic instruction. -/
def ControlSignals.arithmetic (op : AluOp) : ControlSignals :=
  { ControlSignals.idle with dmemRd := true, aluOp := some op, accWe := true, accSrc := some .alu }

/-- The row of a jump. -/
def ControlSignals.jump (c : JumpCond) : ControlSignals := { ControlSignals.idle with jumpCond := c }

/-- R88, row by row; DAT has none ("refuse"). -/
def controlSignals : Opcode → Option ControlSignals
  | .add => some (ControlSignals.arithmetic .add)
  | .sub => some (ControlSignals.arithmetic .sub)
  | .mul => some (ControlSignals.arithmetic .mul)
  | .div => some (ControlSignals.arithmetic .div)
  | .sta => some { ControlSignals.idle with dmemWr := true }
  | .lda => some { ControlSignals.idle with dmemRd := true, accWe := true, accSrc := some .dmem }
  | .jmp => some (ControlSignals.jump .always)
  | .jeq => some (ControlSignals.jump .zero)
  | .jne => some (ControlSignals.jump .nonzero)
  | .jgt => some (ControlSignals.jump .gt)
  | .jlt => some (ControlSignals.jump .lt)
  | .jz => some (ControlSignals.jump .zero)
  | .jnz => some (ControlSignals.jump .nonzero)
  | .hlt => some { ControlSignals.idle with halt := true }
  | .inp => some { ControlSignals.idle with accWe := true, accSrc := some .input, inReq := true }
  | .out => some { ControlSignals.idle with outReq := true }
  | .dat => none

/-- The memory stage's outcome: the byte on the data bus, or a fault entered. -/
inductive BusResult where
  | byte (m : Byte)
  | trapped (s : State)
  deriving DecidableEq, Repr

/-- The data-memory stage: an access out of bounds faults, a zero divisor faults, else the addressed byte is on the bus
(read as 0 when nothing is read). -/
def memoryStage (c : ControlSignals) (opcode operand : Byte) (s : State) : BusResult :=
  if (c.dmemRd || c.dmemWr) && !s.inBounds .dmem (dataAddress operand) 1 then
    .trapped (s.raiseDataAccess opcode operand (dataAddress operand))
  else if c.aluOp = some .div ∧ s.dmem.get (dataAddress operand).toNat = 0x00#8 then
    .trapped (s.raiseDivisionByZero opcode operand)
  else .byte (if c.dmemRd then s.dmem.get (dataAddress operand).toNat else 0x00#8)

/-- The port stage: one poll of the port the signals request. The byte is the input port's. -/
def portStage (c : ControlSignals) (s : State) : State × Poll Byte :=
  if c.inReq then s.inRead
  else if c.outReq then
    match s.outWrite s.acc with
    | (t, .waiting) => (t, .waiting)
    | (t, .done _) => (t, .done 0x00#8)
  else (s, .done 0x00#8)

/-- The value ACC takes from the source the signals select. -/
def accValue (c : ControlSignals) (acc bus input : Byte) : Byte :=
  match c.accSrc, c.aluOp with
  | some .alu, some op => alu op acc bus
  | some .dmem, _ => bus
  | some .input, _ => input
  | _, _ => acc

/-- The write-back stage: ACC, DMEM, PC and the control state. -/
def writeStage (c : ControlSignals) (operand bus input : Byte) (s : State) : State :=
  let wroteAcc := if c.accWe then s.setAcc (accValue c s.acc bus input) else s
  let wroteMem :=
    if c.dmemWr then wroteAcc.setMem .dmem (s.dmem.set (dataAddress operand).toNat s.acc) else wroteAcc
  let wrotePc := if taken c.jumpCond s.cfg.accCmpSigned s.acc then wroteMem.setPc (jumpTarget operand) else wroteMem
  if c.halt then wrotePc.halt else wrotePc.endExecute

/-- EXECUTE as the control signals drive it. -/
def datapath (c : ControlSignals) (opcode operand : Byte) (s : State) : State :=
  match memoryStage c opcode operand s with
  | .trapped t => t
  | .byte bus =>
    match portStage c s with
    | (t, .waiting) => t
    | (t, .done input) => writeStage c operand bus input t

/-- An access the arbiter can grant (20_memory.md R58, R61). -/
inductive Access where
  | imemRead (a : Addr)
  | dmemRead (a : Addr)
  | dmemWrite (a : Addr)
  | inputRead
  | outputWrite
  deriving DecidableEq, Repr

/-- The access of an instruction's EXECUTE phase, at most one (R61, 10_state.md R34). -/
def executeAccess (i : Instr) : Option Access :=
  match controlSignals i.opcode with
  | none => none
  | some c =>
    if c.dmemRd then some (.dmemRead (dataAddress i.operand))
    else if c.dmemWr then some (.dmemWrite (dataAddress i.operand))
    else if c.inReq then some .inputRead
    else if c.outReq then some .outputWrite
    else none

/-- R61: the access granted to the core in the current phase; none in a stopped phase. FETCH reads at PC, which it
latches into IADDR first. -/
def State.coreAccess (s : State) : Option Access :=
  match s.phase with
  | .fetch => some (.imemRead (opcodeAddress s.pc))
  | .decode => some (.imemRead (operandAddress s.iaddr))
  | .execute => s.ir.instruction.bind executeAccess
  | .loaded | .halted | .faulted => none

end Sys2Proof.Machine
end

