-- ==== Sys2Proof/Safety.lean ====
section
/-! DEFINITION. What counts as a proper state and a good end of a run (spec/70_reset_and_hazards.md R268), in the terms
the statements use. -/

namespace Sys2Proof.Machine

/-- The fields FAULT holds for each kind (60_exceptions.md R230). -/
def FaultRecord.wellFormed (r : FaultRecord) : Bool :=
  match r.kind with
  | .noFault => decide (r = FaultRecord.clear)
  | .invalidOpcode =>
    decide (r.space = .imem ∧ r.addr = 0#32 ∧ r.operandValid = true) && !opcodeByteValid r.opcode
  | .outOfBounds =>
    if r.operandValid then
      decide (r.space = .dmem ∧ r.addr = zext32 r.operand ∧ 0x01 ≤ r.opcode.toNat ∧ r.opcode.toNat ≤ 0x06)
    else decide (r.space = .imem ∧ r.operand = 0x00#8)
  | .divisionByZero =>
    decide (r.space = .imem ∧ r.addr = 0#32 ∧ r.opcode = Opcode.div.byte ∧ r.operandValid = true)

/-- IR is empty as R123 writes it, or holds one of the 17 opcodes (10_state.md R24). -/
def InstrReg.wellFormed (r : InstrReg) : Bool :=
  if r.valid then opcodeByteValid r.op else decide (r = InstrReg.empty)

/-- What every state of the machine that a run reaches satisfies. -/
structure State.Inv (s : State) : Prop where
  /-- R6 -/
  cfg_wellFormed : s.cfg.wellFormed = true
  /-- the canonical form of both memories -/
  imem_wf : s.imem.wf
  dmem_wf : s.dmem.wf
  /-- R51, R52: no byte exists at or above the size -/
  imem_below : s.imem.below s.cfg.imemSize
  dmem_below : s.dmem.below s.cfg.dmemSize
  /-- R27: "`RUNNING = 1` exactly when PHASE is FETCH, DECODE or EXECUTE" -/
  running_iff : s.running = s.phase.isRunning
  /-- R24 -/
  ir_wellFormed : s.ir.wellFormed = true
  /-- R28, R230 -/
  fault_wellFormed : s.fault.wellFormed = true
  /-- R31, R234: FAULT holds a report exactly while FAULTED -/
  fault_iff : s.fault.kind ≠ .noFault ↔ s.phase = .faulted
  /-- R28: the report names the instruction in flight -/
  fault_iaddr : s.phase = .faulted → s.fault.iaddr = s.iaddr
  /-- R28: FAULT.opcode is FL, or 0 if the opcode fetch itself failed -/
  fault_opcode : s.phase = .faulted → s.fault.opcode = s.fl ∨ s.fault.opcode = 0x00#8 ∧ s.fault.operandValid = false
  /-- R53: the address of an OutOfBounds report lies outside its memory -/
  fault_addr : s.fault.kind = .outOfBounds → s.size s.fault.space ≤ s.fault.addr.toNat
  /-- R21: during DECODE and EXECUTE, PC is `(IADDR + 2) mod 256` -/
  pc_next : s.phase = .decode ∨ s.phase = .execute → s.pc = nextPc s.iaddr
  /-- R123, R124: in EXECUTE, IR is valid and holds the opcode byte of FL -/
  ir_execute : s.phase = .execute → s.ir.valid = true ∧ s.ir.op = s.fl
  /-- R200: HALTED is entered only by HLT, which IR keeps -/
  ir_halted : s.phase = .halted → s.ir.valid = true ∧ s.ir.op = Opcode.hlt.byte

/-! ### How a run ends (70_reset_and_hazards.md R268) -/

/-- The ends of a run: the first four rows of R268's table. The fifth, "never", is `State.RunsForEver`. -/
inductive RunEnd where
  | halted
  | faulted (r : FaultRecord)
  | refused (r : Refusal)
  | stuck
  /-- the model's own stop in EXECUTE with no instruction in IR, which no run from power-on reaches (log 12) -/
  | stopped (r : Fault)
  deriving DecidableEq, Repr

/-- R268, "stuck": a port request that the host, with no polls left, never answers (log 5). -/
def State.stuck (s : State) : Bool :=
  (s.inReq && decide (s.inPort = [])) || (s.outValid && decide (s.outPort = []))

/-- The end of the run at this state, if the run goes no further; `none` while it goes on, and in LOADED, where no run
has started. -/
def State.runEnd (s : State) : Option RunEnd :=
  match s.phase with
  | .halted => some .halted
  | .faulted => some (.faulted s.fault)
  | .loaded | .fetch | .decode => none
  | .execute =>
    if s.stuck then some .stuck
    else
      match step s with
      | .next _ => none
      | .refused r => some (.refused r)
      | .fault r => some (.stopped r)

/-- The end that the run from `s` meets FIRST, within `n` steps. Nothing after an end belongs to the run: what the host
does to a machine that halted or faulted is not looked at. -/
def State.endWithin : Nat → State → Option RunEnd
  | 0, s => s.runEnd
  | n + 1, s =>
    match s.runEnd with
    | some e => some e
    | none =>
      match step s with
      | .next t => State.endWithin n t
      | .fault _ | .refused _ => none

/-- R268, "A run starts at `start()` in LOADED": the launch state, with `start()` the host's next operation. -/
def State.IsLaunch (s : State) : Prop := s.phase = .loaded ∧ ∃ rest, s.commands = .start :: rest

/-- A host that answers every port request, for ever (44_halt_io.md R204): `bytes j` to the j-th INP, after leaving it
waiting for `inDelay j` polls, and the j-th OUT accepted after `outDelay j` polls. It is no part of State: State holds
its first answers, as lists (log 5). -/
structure PortHost where
  bytes : Nat → Byte
  inDelay : Nat → Nat
  outDelay : Nat → Nat

/-- What the host does at the polls of its first `k` input answers. -/
def PortHost.inAnswers (h : PortHost) (k : Nat) : List (Option Byte) :=
  (List.range k).flatMap (fun j => List.replicate (h.inDelay j) none ++ [some (h.bytes j)])

/-- What the host does at the polls of its first `k` output answers. -/
def PortHost.outAnswers (h : PortHost) (k : Nat) : List Bool :=
  (List.range k).flatMap (fun j => List.replicate (h.outDelay j) false ++ [true])

/-- The state with the host's first `k` answers at each port. -/
def State.withHost (s : State) (h : PortHost) (k : Nat) : State :=
  { s with inPort := h.inAnswers k, outPort := h.outAnswers k }

/-- The run from this launch state with this host has the end `e`: some first `k` answers are enough to reach it. (An end
`stuck` says only that `k` answers were too few: this host answers every request.) -/
def State.EndsWith (s : State) (h : PortHost) (e : RunEnd) : Prop :=
  s.IsLaunch ∧ e ≠ .stuck ∧ ∃ k n, State.endWithin n (s.withHost h k) = some e

/-- R268, "never": the run from this launch state with this host has no end: however many steps are looked at, with
enough of the host's answers at hand the run has met no end. It may move bytes over the ports for ever. -/
def State.RunsForEver (s : State) (h : PortHost) : Prop :=
  s.IsLaunch ∧ ∀ n, ∃ k, State.endWithin n (s.withHost h k) = none

/-- R268, a program "ends well": the run from this launch state, under every sequence of input bytes that the claim
allows and with a host that answers every request after any delays, has HALTED as its end. -/
def EndsWell (s : State) (allowed : (Nat → Byte) → Prop) : Prop :=
  s.IsLaunch ∧ ∀ h : PortHost, allowed h.bytes → s.EndsWith h .halted

/-- A run's own steps: `t` is reached from `s` by `n` steps. -/
def Reaches (s : State) (n : Nat) (t : State) : Prop := Host.Core.run core n s = .next t

end Sys2Proof.Machine
end

