-- ==== Sys2Proof/Certificates/Slice0/Obligations.lean ====
section
/-! DEFINITION. The statements about the Virtual Nanocomputer CORE, for the provers. Each docstring names the rule of
spec/ it formalises. `D<n>` is a decision of spec/92_eei_decisions.md: the spec's own choice, logged in
notes/assumptions/; a statement that rests on one says so and is 'derived' in OBLIGATIONS.json. -/

open Sys2Proof Sys2Proof.Machine

/-! ### Encoding -/

/-- R80, R81, R86 and decision D1: the decoder answers an instruction exactly on that instruction's own two bytes,
opcode first, whatever follows: no bit is dropped, no two encodings share an instruction, and no byte is skipped. -/
def Obligations.DecodeIffEncoded : Prop :=
  ∀ (bytes : List Byte) (i : Instr) (rest : List Byte),
    decode bytes = .ok (i, rest) ↔ i.wellFormed = true ∧ bytes = encode i ++ rest

/-- R87: `decode` is total on the 256 byte values; it returns the opcode whose byte it is for 0x01 to 0x11 and `Invalid`
otherwise; `encode` and `decode` are mutual inverses over the 17 valid codes. -/
def Obligations.OpcodeMapMutualInverse : Prop :=
  (∀ o : Opcode, decodeOpcode o.byte = .ok o) ∧
  (∀ b : Byte, 0x01 ≤ b.toNat → b.toNat ≤ 0x11 → ∃ o : Opcode, decodeOpcode b = .ok o ∧ o.byte = b) ∧
  (∀ b : Byte, ¬ (0x01 ≤ b.toNat ∧ b.toNat ≤ 0x11) → decodeOpcode b = .error (.invalidOpcode b))

/-- R85: 0x00 and 0x12 to 0xFF spell no instruction; that is 239 values; at DECODE such a byte raises InvalidOpcode. -/
def Obligations.InvalidOpcodeBytesRaise : Prop :=
  (∀ b c : Byte, decodeBytes b c = .error (.invalidOpcode b) ↔ b = 0x00#8 ∨ 0x12 ≤ b.toNat) ∧
  ((List.range 256).filter (fun n => !opcodeByteValid (BitVec.ofNat 8 n))).length = 239 ∧
  (∀ s : State, s.phase = .decode → s.iaddr.toNat + 1 < s.cfg.imemSize → (s.fl = 0x00#8 ∨ 0x12 ≤ s.fl.toNat) →
    ∃ t, step s = .next t ∧ t.phase = .faulted ∧ t.running = false ∧ t.fault.kind = .invalidOpcode)

/-- R82 (decision D1): words written out from the table's patterns, one per family, decode to their instructions. -/
def Obligations.WrittenWordsDecode : Prop :=
  decodeBytes 0b00000001#8 0x2A#8 = .ok (.add 0x2A#8) ∧
  decodeBytes 0b00000110#8 0x00#8 = .ok (.lda 0x00#8) ∧
  decodeBytes 0b00001011#8 0x06#8 = .ok (.jlt 0x06#8) ∧
  decodeBytes 0b00001110#8 0xFF#8 = .ok (.hlt 0xFF#8) ∧
  decodeBytes 0b00010001#8 0x05#8 = .ok (.dat 0x05#8)

/-! ### The cycle -/

/-- R120, R122 to R124: a step in EXECUTE is `exec` of the instruction IR holds; and when the two bytes at PC decode to a
well-formed instruction, two steps (FETCH, DECODE) lead to the state where IADDR holds the old PC, FL the opcode byte,
IR the instruction and PC the next address, and the third step is `exec` of it there. -/
def Obligations.StepRunsDecodedInstruction : Prop :=
  (∀ (s : State) (i : Instr), s.phase = .execute → s.ir.instruction = some i → step s = exec i s) ∧
  ∀ (s : State) (i : Instr) (b c : Byte),
    s.phase = .fetch → i.wellFormed = true →
    s.readByte .imem (opcodeAddress s.pc) = some b → s.readByte .imem (operandAddress s.pc) = some c →
    decodeBytes b c = .ok i →
    ∃ t, t = { s with iaddr := s.pc, fl := b, ir := { valid := true, op := b, operand := c },
                      pc := BitVec.ofNat 8 ((s.pc.toNat + 2) % 256), phase := .execute } ∧
      Reaches s 2 t ∧ t.ir.instruction = some i ∧ step t = exec i t ∧ Host.Core.run core 3 s = exec i t ∧
      cycle s = exec i t

/-- R122 (decision D5 for the wrap mod 256): FETCH, in bounds and out of bounds. -/
def Obligations.FetchReadsOpcodeAndAdvances : Prop :=
  ∀ s : State, s.phase = .fetch →
    (s.pc.toNat < s.cfg.imemSize →
      step s = .next { s with iaddr := s.pc, fl := s.imem.get s.pc.toNat,
                              pc := BitVec.ofNat 8 ((s.pc.toNat + 2) % 256), phase := .decode }) ∧
    (s.cfg.imemSize ≤ s.pc.toNat →
      ∃ t, step s = .next t ∧ t.phase = .faulted ∧ t.running = false ∧ t.pc = s.pc ∧ t.fl = s.fl ∧
        t.iaddr = s.pc ∧ t.ir = s.ir ∧ t.acc = s.acc ∧ t.imem = s.imem ∧ t.dmem = s.dmem ∧
        t.fault = { kind := .outOfBounds, space := .imem, addr := BitVec.ofNat 32 s.pc.toNat, iaddr := s.pc,
                    opcode := 0x00#8, operandValid := false, operand := 0x00#8 })

/-- R123 (decisions D6, D11, D12): DECODE reads the operand at IADDR + 1 before it checks the opcode; an invalid opcode
empties IR. -/
def Obligations.DecodeReadsOperandThenChecksOpcode : Prop :=
  ∀ s : State, s.phase = .decode →
    (s.cfg.imemSize ≤ s.iaddr.toNat + 1 →
      ∃ t, step s = .next t ∧ t.phase = .faulted ∧ t.ir = s.ir ∧
        t.fault = { kind := .outOfBounds, space := .imem, addr := BitVec.ofNat 32 (s.iaddr.toNat + 1),
                    iaddr := s.iaddr, opcode := s.fl, operandValid := false, operand := 0x00#8 }) ∧
    (s.iaddr.toNat + 1 < s.cfg.imemSize → opcodeByteValid s.fl = false →
      ∃ t, step s = .next t ∧ t.phase = .faulted ∧
        t.ir = { valid := false, op := 0x00#8, operand := 0x00#8 } ∧
        t.fault = { kind := .invalidOpcode, space := .imem, addr := 0#32, iaddr := s.iaddr, opcode := s.fl,
                    operandValid := true, operand := s.imem.get (s.iaddr.toNat + 1) }) ∧
    (s.iaddr.toNat + 1 < s.cfg.imemSize → opcodeByteValid s.fl = true →
      step s = .next { s with
        ir := { valid := true, op := s.fl, operand := s.imem.get (s.iaddr.toNat + 1) }, phase := .execute })

/-- R120, R127: a cycle is the steps of its phases, one after the other: one step in a stopped phase and in EXECUTE, and
otherwise as many as lead through DECODE and EXECUTE. The statements about `cycle` reach a run through this one. -/
def Obligations.CycleIsStepsOfItsPhases : Prop :=
  ∀ s : State,
    (s.phase.isRunning = false ∨ s.phase = .execute → cycle s = Host.Core.run core 1 s) ∧
    (s.phase = .decode → (decodePhase s).phase = .execute → cycle s = Host.Core.run core 2 s) ∧
    (s.phase = .decode → (decodePhase s).phase ≠ .execute → cycle s = Host.Core.run core 1 s) ∧
    (s.phase = .fetch → (fetchPhase s).phase ≠ .decode → cycle s = Host.Core.run core 1 s) ∧
    (s.phase = .fetch → (fetchPhase s).phase = .decode → (decodePhase (fetchPhase s)).phase ≠ .execute →
      cycle s = Host.Core.run core 2 s) ∧
    (s.phase = .fetch → (fetchPhase s).phase = .decode → (decodePhase (fetchPhase s)).phase = .execute →
      cycle s = Host.Core.run core 3 s)

/-- R120 (decision D9): every step moves PHASE along a row of the table, and HALTED, LOADED and the waiting EXECUTE are
entered only by the event the row names. -/
def Obligations.PhaseMovesOnlyAlongTable : Prop :=
  ∀ s t : State, step s = .next t →
    match s.phase with
    | .loaded =>
      t.phase = .loaded ∨ (t.phase = .fetch ∧ t.running = true ∧ ∃ rest, s.commands = .start :: rest)
    | .halted | .faulted =>
      t.phase = s.phase ∨
        (t.phase = .loaded ∧
          ∃ image rest, s.commands = .loadProgram image :: rest ∧ image.length ≤ s.cfg.imemSize)
    | .fetch => t.phase = .decode ∧ s.pc.toNat < s.cfg.imemSize ∨ t.phase = .faulted ∧ s.cfg.imemSize ≤ s.pc.toNat
    | .decode =>
      t.phase = .execute ∧ opcodeByteValid s.fl = true ∨
        t.phase = .faulted ∧ (s.cfg.imemSize ≤ s.iaddr.toNat + 1 ∨ opcodeByteValid s.fl = false)
    | .execute =>
      (t.phase = .fetch ∧ s.ir.op ≠ 0x0E#8) ∨ (t.phase = .halted ∧ s.ir.op = 0x0E#8) ∨
        (t.phase = .faulted ∧ s.ir.op.toNat ≤ 0x06) ∨
        (t.phase = .execute ∧ (s.inReq = true ∨ s.outValid = true) ∧
          t = { s with inPort := t.inPort, outPort := t.outPort })

/-! ### Arithmetic -/

/-- R151, whole: encoding, pseudocode, no flag, and its exception. -/
def Obligations.AddWritesWrappedSum : Prop :=
  ∀ (a : Byte) (s : State),
    decodeBytes 0x01#8 a = .ok (.add a) ∧
    (a.toNat < s.cfg.dmemSize →
      exec (.add a) s = .next { s with
        acc := BitVec.ofNat 8 ((s.acc.toNat + (s.dmem.get a.toNat).toNat) % 256), phase := .fetch }) ∧
    (s.cfg.dmemSize ≤ a.toNat →
      ∃ t, exec (.add a) s = .next t ∧ t.phase = .faulted ∧ t.running = false ∧ t.fault.kind = .outOfBounds ∧
        t.fault.space = .dmem ∧ t.fault.addr = BitVec.ofNat 32 a.toNat ∧ t.acc = s.acc ∧ t.dmem = s.dmem)

/-- R152 (its opcode byte is decision D1): ACC is the minuend; a negative difference wraps. -/
def Obligations.SubWritesWrappedDifference : Prop :=
  ∀ (a : Byte) (s : State),
    decodeBytes 0x02#8 a = .ok (.sub a) ∧
    (a.toNat < s.cfg.dmemSize →
      exec (.sub a) s = .next { s with
        acc := BitVec.ofInt 8 ((s.acc.toNat : Int) - ((s.dmem.get a.toNat).toNat : Int)), phase := .fetch })

/-- R153 (its opcode byte is decision D1): the low 8 bits of the product. -/
def Obligations.MulWritesLowByteOfProduct : Prop :=
  ∀ (a : Byte) (s : State),
    decodeBytes 0x03#8 a = .ok (.mul a) ∧
    (a.toNat < s.cfg.dmemSize →
      exec (.mul a) s = .next { s with
        acc := BitVec.ofNat 8 (s.acc.toNat * (s.dmem.get a.toNat).toNat % 256), phase := .fetch })

/-- R154 (opcode byte D1; the unsigned quotient is decision D7, log 10): for a divisor other than 0, the quotient q with
m q ≤ ACC < m (q + 1). -/
def Obligations.DivWritesQuotient : Prop :=
  ∀ (a : Byte) (s : State),
    decodeBytes 0x04#8 a = .ok (.div a) ∧
    (a.toNat < s.cfg.dmemSize → s.dmem.get a.toNat ≠ 0x00#8 →
      ∃ q : Byte, exec (.div a) s = .next { s with acc := q, phase := .fetch } ∧
        (s.dmem.get a.toNat).toNat * q.toNat ≤ s.acc.toNat ∧
        s.acc.toNat < (s.dmem.get a.toNat).toNat * (q.toNat + 1))

/-- R154, R230 (decision D10 for the record's fields, D12 for the order): a zero divisor byte stops the machine with
DivisionByZero and ACC unchanged, whatever the operand byte; an operand out of bounds never reaches the divisor. -/
def Obligations.DivByZeroFaults : Prop :=
  ∀ (a : Byte) (s : State),
    (a.toNat < s.cfg.dmemSize → s.dmem.get a.toNat = 0x00#8 →
      exec (.div a) s = .next { s with
        fault := { kind := .divisionByZero, space := .imem, addr := 0#32, iaddr := s.iaddr, opcode := 0x04#8,
                   operandValid := true, operand := a },
        running := false, phase := .faulted,
        replies := s.replies ++ [.returned (.faulted
          { kind := .divisionByZero, space := .imem, addr := 0#32, iaddr := s.iaddr, opcode := 0x04#8,
            operandValid := true, operand := a })] }) ∧
    (s.cfg.dmemSize ≤ a.toNat → ∃ t, exec (.div a) s = .next t ∧ t.fault.kind = .outOfBounds)

/-- R155 ("derived" in the spec): ADD, SUB and MUL give the bit pattern of two's-complement arithmetic modulo 256. -/
def Obligations.SignedReadingAgreesModulo256 : Prop :=
  ∀ x y : Byte,
    (s8 (alu .add x y) - (s8 x + s8 y)) % 256 = 0 ∧
    (s8 (alu .sub x y) - (s8 x - s8 y)) % 256 = 0 ∧
    (s8 (alu .mul x y) - s8 x * s8 y) % 256 = 0

/-! ### Stores and loads -/

/-- R170 (opcode byte D1): STA writes ACC at its address, and no other byte. The address is the meaning's own,
`dataAddress`. -/
def Obligations.StaStoresAcc : Prop :=
  ∀ (a : Byte) (s : State),
    decodeBytes 0x05#8 a = .ok (.sta a) ∧
    (a.toNat < s.cfg.dmemSize →
      ∃ m : Memory, exec (.sta a) s = .next { s with dmem := m, phase := .fetch } ∧
        m.get (dataAddress a).toNat = s.acc ∧
        ∀ b : Nat, b ≠ (dataAddress a).toNat → m.get b = s.dmem.get b)

/-- R171 (opcode byte D1): LDA moves the byte as it is. -/
def Obligations.LdaLoadsAcc : Prop :=
  ∀ (a : Byte) (s : State),
    decodeBytes 0x06#8 a = .ok (.lda a) ∧
    (a.toNat < s.cfg.dmemSize →
      exec (.lda a) s = .next { s with acc := s.dmem.get a.toNat, phase := .fetch })

/-- R230's data row (decision D10): each of the six data instructions, with its operand at or above DMEM_SIZE, enters
the fault with exactly this report, and changes nothing else. -/
def Obligations.DataAccessOutOfBoundsFaults : Prop :=
  ∀ (a : Byte) (s : State) (i : Instr),
    i ∈ [Instr.add a, Instr.sub a, Instr.mul a, Instr.div a, Instr.sta a, Instr.lda a] →
    s.cfg.dmemSize ≤ a.toNat →
      exec i s = .next { s with
        fault := { kind := .outOfBounds, space := .dmem, addr := BitVec.ofNat 32 a.toNat, iaddr := s.iaddr,
                   opcode := i.opcode.byte, operandValid := true, operand := a },
        running := false, phase := .faulted,
        replies := s.replies ++ [.returned (.faulted
          { kind := .outOfBounds, space := .dmem, addr := BitVec.ofNat 32 a.toNat, iaddr := s.iaddr,
            opcode := i.opcode.byte, operandValid := true, operand := a })] }

/-- R62: a load gets the value of the latest store to its address in program order, whatever ACC and PC were between. -/
def Obligations.LoadSeesLatestStore : Prop :=
  ∀ (a x p : Byte) (s t : State), a.toNat < s.cfg.dmemSize → exec (.sta a) s = .next t →
    exec (.lda a) { t with acc := x, pc := p } = .next { t with acc := s.acc, pc := p, phase := .fetch }

/-! ### Jumps -/

/-- R180: the resolver. A taken jump writes the operand itself to PC; else PC keeps its value; nothing else changes but
the end of EXECUTE (R125). -/
def Obligations.JumpResolverWritesOperand : Prop :=
  ∀ (a : Byte) (s : State) (i : Instr) (c : JumpCond),
    (i, c) ∈ [(Instr.jmp a, JumpCond.always), (Instr.jeq a, JumpCond.zero), (Instr.jne a, JumpCond.nonzero),
      (Instr.jgt a, JumpCond.gt), (Instr.jlt a, JumpCond.lt), (Instr.jz a, JumpCond.zero),
      (Instr.jnz a, JumpCond.nonzero)] →
    exec i s = .next { s with
      pc := if taken c s.cfg.accCmpSigned s.acc = true then a else s.pc, phase := .fetch }

/-- R182, R183, R184, R187, R188 (opcode bytes D1): JMP is taken on every ACC; the zero tests read ACC alone, whatever
ACC_CMP_SIGNED is; JEQ and JZ, and JNE and JNZ, differ in their opcode byte only. -/
def Obligations.JmpAndZeroTestJumps : Prop :=
  ∀ (a : Byte) (s : State),
    decodeBytes 0x07#8 a = .ok (.jmp a) ∧ exec (.jmp a) s = .next { s with pc := a, phase := .fetch } ∧
    decodeBytes 0x08#8 a = .ok (.jeq a) ∧ decodeBytes 0x0C#8 a = .ok (.jz a) ∧
    decodeBytes 0x09#8 a = .ok (.jne a) ∧ decodeBytes 0x0D#8 a = .ok (.jnz a) ∧
    exec (.jeq a) s = .next { s with pc := if s.acc.toNat = 0 then a else s.pc, phase := .fetch } ∧
    exec (.jz a) s = exec (.jeq a) s ∧
    exec (.jne a) s = .next { s with pc := if s.acc.toNat = 0 then s.pc else a, phase := .fetch } ∧
    exec (.jnz a) s = exec (.jne a) s

/-- R185, R181 (opcode byte D1; the parameter is decision D4): JGT is taken for every ACC but 0 when unsigned, and for
0x01 to 0x7F when signed. -/
def Obligations.JgtTestsPositive : Prop :=
  ∀ (a : Byte) (s : State),
    decodeBytes 0x0A#8 a = .ok (.jgt a) ∧
    (s.cfg.accCmpSigned = false →
      exec (.jgt a) s = .next { s with pc := if s.acc = 0x00#8 then s.pc else a, phase := .fetch }) ∧
    (s.cfg.accCmpSigned = true →
      exec (.jgt a) s = .next { s with
        pc := if 0x01 ≤ s.acc.toNat ∧ s.acc.toNat ≤ 0x7F then a else s.pc, phase := .fetch })

/-- R186, R181 (opcode byte D1; the parameter is decision D4): JLT is never taken when unsigned, and exactly for 0x80 to
0xFF when signed. -/
def Obligations.JltTestsNegative : Prop :=
  ∀ (a : Byte) (s : State),
    decodeBytes 0x0B#8 a = .ok (.jlt a) ∧
    (s.cfg.accCmpSigned = false → exec (.jlt a) s = .next { s with phase := .fetch }) ∧
    (s.cfg.accCmpSigned = true →
      exec (.jlt a) s = .next { s with pc := if 0x80 ≤ s.acc.toNat then a else s.pc, phase := .fetch })

/-- R189 ("derived" in the spec, with decision D13): a jump outside IMEM itself completes; the next FETCH raises
OutOfBounds with FAULT.iaddr the target. -/
def Obligations.JumpOutsideImemFaultsAtFetch : Prop :=
  ∀ (a : Byte) (s : State), s.cfg.imemSize ≤ a.toNat →
    ∃ t u, exec (.jmp a) s = .next t ∧ t.phase = .fetch ∧ t.pc = a ∧ step t = .next u ∧ u.phase = .faulted ∧
      u.pc = a ∧ u.fault.kind = .outOfBounds ∧ u.fault.space = .imem ∧ u.fault.addr = BitVec.ofNat 32 a.toNat ∧
      u.fault.iaddr = a

/-! ### HLT, INP, OUT, DAT -/

/-- R200 (opcode byte D1; the operand is ignored by decision D14): HLT clears RUNNING, enters HALTED, `start()` returns
Halted (R121), and all else is kept. -/
def Obligations.HltStopsTheMachine : Prop :=
  ∀ (x : Byte) (s : State),
    decodeBytes 0x0E#8 x = .ok (.hlt x) ∧
    exec (.hlt x) s = .next { s with
      running := false, phase := .halted, replies := s.replies ++ [.returned .halted] }

/-- R127: a program of one HLT halts after exactly one cycle, which is three steps from FETCH (R120), with ACC and the
memories kept and PC at the next address; before the third step the machine runs. -/
def Obligations.SingleHltHaltsInOneCycle : Prop :=
  ∀ (s : State), s.phase = .fetch → s.pc.toNat + 1 < s.cfg.imemSize → s.imem.get s.pc.toNat = 0x0E#8 →
    ∃ t, cycle s = .next t ∧ Reaches s 3 t ∧ t.phase = .halted ∧ t.running = false ∧ t.acc = s.acc ∧
      t.dmem = s.dmem ∧ t.imem = s.imem ∧ t.pc = BitVec.ofNat 8 ((s.pc.toNat + 2) % 256) ∧ t.fl = 0x0E#8 ∧
      t.ir = { valid := true, op := 0x0E#8, operand := s.imem.get (s.pc.toNat + 1) } ∧
      ∀ (k : Nat) (u : State), k < 3 → Reaches s k u → u.phase.isRunning = true

/-- R201 (opcode byte D1, operand ignored D14, handshake D23): when the host supplies a byte, whichever it is, INP takes
exactly that byte into ACC. -/
def Obligations.InpTakesSuppliedByte : Prop :=
  ∀ (x v : Byte) (rest : List (Option Byte)) (s : State), s.inPort = some v :: rest →
    decodeBytes 0x0F#8 x = .ok (.inp x) ∧
    exec (.inp x) s = .next { s with
      acc := v, inPort := rest, events := s.events ++ [.input v], phase := .fetch }

/-- R202 (opcode byte D1, operand ignored D14, handshake D23): when the host is ready, OUT moves ACC once. -/
def Obligations.OutSendsAcc : Prop :=
  ∀ (x : Byte) (rest : List Bool) (s : State), s.outPort = true :: rest →
    decodeBytes 0x10#8 x = .ok (.out x) ∧
    exec (.out x) s = .next { s with
      outPort := rest, events := s.events ++ [.output s.acc], phase := .fetch }

/-- R203 (decision D23): while a request waits, no other state changes and PHASE stays EXECUTE: `in_req` or `out_valid`
stays raised, and the step spends only the host's poll, if it has one left. -/
def Obligations.PortWaitChangesNothingElse : Prop :=
  ∀ (s : State),
    (s.inReq = true →
      (s.inPort = [] → step s = .next s) ∧
      (∀ rest, s.inPort = none :: rest → step s = .next { s with inPort := rest })) ∧
    (s.outValid = true →
      (s.outPort = [] → step s = .next s) ∧
      (∀ rest, s.outPort = false :: rest → step s = .next { s with outPort := rest }))

/-- R203, R204 (decision D23): a step moves at most one byte over the ports, after all earlier ones; an output byte is
ACC as it is, an input byte is the one the host supplied, and it is in ACC afterwards. -/
def Obligations.PortTransfersAreInOrder : Prop :=
  ∀ s t : State, step s = .next t →
    t.events = s.events ∨
    (∃ v, t.events = s.events ++ [.output v] ∧ v = s.acc ∧ s.outPort = true :: t.outPort ∧ t.inPort = s.inPort) ∨
    (∃ v, t.events = s.events ++ [.input v] ∧ v = t.acc ∧ s.inPort = some v :: t.inPort ∧ t.outPort = s.outPort)

/-- R220: DAT decodes: FETCH and DECODE run as for any instruction, IR holds it and PHASE is EXECUTE; its operand byte
is bounds-checked like any other. -/
def Obligations.DatDecodesLikeAnyInstruction : Prop :=
  ∀ (s : State), s.phase = .decode → s.fl = 0x11#8 →
    (s.iaddr.toNat + 1 < s.cfg.imemSize →
      decodeBytes 0x11#8 (s.imem.get (s.iaddr.toNat + 1)) = .ok (.dat (s.imem.get (s.iaddr.toNat + 1))) ∧
      step s = .next { s with
        ir := { valid := true, op := 0x11#8, operand := s.imem.get (s.iaddr.toNat + 1) }, phase := .execute }) ∧
    (s.cfg.imemSize ≤ s.iaddr.toNat + 1 →
      ∃ t, step s = .next t ∧ t.phase = .faulted ∧ t.fault.kind = .outOfBounds ∧ t.fault.space = .imem)

/-- R221 (decision D15): EXECUTE of DAT is refused: in `exec` on every operand and state, and in a run: FETCH and DECODE
take their steps, and the machine stands in EXECUTE with the DAT in IR, RUNNING and FAULT as they were, where the next
step is refused. -/
def Obligations.DatExecuteIsRefused : Prop :=
  (∀ (x : Byte) (s : State), exec (.dat x) s = .refused .datExecute) ∧
  (∀ s : State, s.phase = .fetch → s.pc.toNat + 1 < s.cfg.imemSize → s.imem.get s.pc.toNat = 0x11#8 →
    ∃ t, Reaches s 2 t ∧ step t = .refused .datExecute ∧
      t = { s with iaddr := s.pc, fl := 0x11#8, pc := BitVec.ofNat 8 ((s.pc.toNat + 2) % 256), phase := .execute,
                   ir := { valid := true, op := 0x11#8, operand := s.imem.get (s.pc.toNat + 1) } })

/-! ### Frames -/

/-- R34: ADD, SUB, MUL, DIV and LDA write ACC and nothing else a program can see: no other register but the control
state, no memory byte, no port. A fault writes FAULT and the control state and keeps ACC. -/
def Obligations.AccumulatorInstructionsFrame : Prop :=
  ∀ (a : Byte) (i : Instr) (s t : State),
    i ∈ [Instr.add a, Instr.sub a, Instr.mul a, Instr.div a, Instr.lda a] → exec i s = .next t →
    t.pc = s.pc ∧ t.fl = s.fl ∧ t.ir = s.ir ∧ t.iaddr = s.iaddr ∧ t.cfg = s.cfg ∧
    (∀ (sp : Space) (b : Addr), t.readByte sp b = s.readByte sp b) ∧
    t.inPort = s.inPort ∧ t.outPort = s.outPort ∧ t.commands = s.commands ∧ t.events = s.events ∧
    (t.phase = .fetch ∧ t.running = s.running ∧ t.fault = s.fault ∧ t.replies = s.replies ∨
      t.phase = .faulted ∧ t.running = false ∧ t.acc = s.acc ∧ t.fault.kind ≠ .noFault)

/-- R34, R170: STA writes the one DMEM byte at its address and nothing else a program can see; on a fault, no byte. -/
def Obligations.StoreFrame : Prop :=
  ∀ (a : Byte) (s t : State), exec (.sta a) s = .next t →
    t.acc = s.acc ∧ t.pc = s.pc ∧ t.fl = s.fl ∧ t.ir = s.ir ∧ t.iaddr = s.iaddr ∧ t.cfg = s.cfg ∧
    (∀ b : Addr, t.readByte .imem b = s.readByte .imem b) ∧
    (∀ b : Addr, b ≠ dataAddress a → t.readByte .dmem b = s.readByte .dmem b) ∧
    t.inPort = s.inPort ∧ t.outPort = s.outPort ∧ t.commands = s.commands ∧ t.events = s.events ∧
    (t.phase = .fetch ∧ t.running = s.running ∧ t.fault = s.fault ∧ t.replies = s.replies ∨
      t.phase = .faulted ∧ t.running = false ∧ t.fault.kind = .outOfBounds ∧
        t.readByte .dmem (dataAddress a) = s.readByte .dmem (dataAddress a))

/-- R34, R180: a jump changes PC and the phase alone, and reads no memory, so it never faults. -/
def Obligations.JumpFrame : Prop :=
  ∀ (a : Byte) (i : Instr) (s t : State),
    i ∈ [Instr.jmp a, Instr.jeq a, Instr.jne a, Instr.jgt a, Instr.jlt a, Instr.jz a, Instr.jnz a] →
    exec i s = .next t →
    t.acc = s.acc ∧ t.fl = s.fl ∧ t.ir = s.ir ∧ t.iaddr = s.iaddr ∧ t.cfg = s.cfg ∧ t.running = s.running ∧
    t.fault = s.fault ∧ (∀ (sp : Space) (b : Addr), t.readByte sp b = s.readByte sp b) ∧ t.inPort = s.inPort ∧
    t.outPort = s.outPort ∧ t.commands = s.commands ∧ t.events = s.events ∧ t.replies = s.replies ∧
    t.phase = .fetch ∧ (t.pc = a ∨ t.pc = s.pc)

/-- R34, R200 to R202 (operand ignored D14): HLT, INP and OUT touch no memory byte, no latch, no FAULT and not PC; HLT
and OUT keep ACC; INP keeps the output side, OUT the input side, HLT both. -/
def Obligations.HaltAndPortFrame : Prop :=
  ∀ (x : Byte) (i : Instr) (s t : State),
    i ∈ [Instr.hlt x, Instr.inp x, Instr.out x] → exec i s = .next t →
    t.pc = s.pc ∧ t.fl = s.fl ∧ t.ir = s.ir ∧ t.iaddr = s.iaddr ∧ t.cfg = s.cfg ∧ t.fault = s.fault ∧
    (∀ (sp : Space) (b : Addr), t.readByte sp b = s.readByte sp b) ∧ t.commands = s.commands ∧
    (i ≠ .inp x → t.acc = s.acc ∧ t.inPort = s.inPort) ∧ (i ≠ .out x → t.outPort = s.outPort) ∧
    (i = .hlt x → t.events = s.events) ∧ (i ≠ .hlt x → t.running = s.running ∧ t.replies = s.replies)

/-! ### Memory -/

/-- R53: every access, by the core or by the host, is checked against the size on the full address; a byte access at
`addr >= SIZE`, and a 2-byte access at `addr + 1 >= SIZE`, raises OutOfBounds(space, addr) and reads or writes nothing.
For the core: FETCH, DECODE and the six data instructions. For the host: the reply, with no other change. -/
def Obligations.EveryAccessIsBoundsChecked : Prop :=
  ∀ (s : State) (sp : Space) (a : Addr) (v : Byte) (w : HalfWord),
    (s.size sp ≤ a.toNat →
      s.readByte sp a = none ∧ s.writeByte sp a v = none ∧
      s.hostCommand (.read sp a) = s.reply (.outOfBounds sp a) ∧
      s.hostCommand (.write sp a v) = s.reply (.outOfBounds sp a)) ∧
    (a.toNat < s.size sp →
      s.readByte sp a = some ((s.mem sp).get a.toNat) ∧ (s.writeByte sp a v).isSome = true) ∧
    (s.size sp ≤ a.toNat + 1 →
      s.readWord sp a = none ∧ s.writeWord sp a w = none ∧
      s.hostCommand (.readWord sp a) = s.reply (.outOfBounds sp a) ∧
      s.hostCommand (.writeWord sp a w) = s.reply (.outOfBounds sp a)) ∧
    (a.toNat + 1 < s.size sp → (s.readWord sp a).isSome = true ∧ (s.writeWord sp a w).isSome = true) ∧
    (s.phase = .fetch → s.cfg.imemSize ≤ s.pc.toNat →
      ∃ t, step s = .next t ∧ t.phase = .faulted ∧ t.fault.kind = .outOfBounds ∧ t.fault.space = .imem ∧
        t.fault.addr = BitVec.ofNat 32 s.pc.toNat ∧ t.fl = s.fl) ∧
    (s.phase = .decode → s.cfg.imemSize ≤ s.iaddr.toNat + 1 →
      ∃ t, step s = .next t ∧ t.phase = .faulted ∧ t.fault.kind = .outOfBounds ∧ t.fault.space = .imem ∧
        t.fault.addr = BitVec.ofNat 32 (s.iaddr.toNat + 1) ∧ t.ir = s.ir) ∧
    (∀ i : Instr, i ∈ [Instr.add v, Instr.sub v, Instr.mul v, Instr.div v, Instr.sta v, Instr.lda v] →
      s.cfg.dmemSize ≤ v.toNat →
      ∃ t, exec i s = .next t ∧ t.phase = .faulted ∧ t.fault.kind = .outOfBounds ∧ t.fault.space = .dmem ∧
        t.fault.addr = BitVec.ofNat 32 v.toNat ∧ t.acc = s.acc ∧ t.dmem = s.dmem)

/-- R54: a read returns the byte last written at its address, or the power-on value 0x00 if nothing wrote it (R35); a
byte keeps its value until something writes it; and while the machine goes on, a byte changes only by STA (DMEM), by
`load_data` or a host write (DMEM), by `load_program` or a host write (IMEM). -/
def Obligations.MemoryChangesOnlyByItsWriters : Prop :=
  (∀ (s t : State) (sp : Space) (a : Addr) (v : Byte), s.writeByte sp a v = some t →
    t.readByte sp a = some v ∧ ∀ b, b ≠ a → t.readByte sp b = s.readByte sp b) ∧
  (∀ (c : Config) (sp : Space) (b : Nat), ((State.powerOn c).mem sp).get b = 0x00#8) ∧
  (∀ (s t : State) (sp : Space) (b : Nat), step s = .next t → (t.mem sp).get b ≠ (s.mem sp).get b →
    (s.phase.isRunning = true ∧ sp = .dmem ∧
      ∃ a : Byte, t.ir.instruction = some (.sta a) ∧ b = (dataAddress a).toNat ∧ t.dmem.get b = s.acc) ∨
    (s.phase.isRunning = false ∧
      ∃ c rest, s.commands = c :: rest ∧
        ((∃ image, sp = .imem ∧ c = .loadProgram image) ∨ (∃ image, sp = .dmem ∧ c = .loadData image) ∨
          (∃ a v, c = .write sp a v) ∨ (∃ a v, c = .writeWord sp a v))))

/-- R65: no instruction writes IMEM, and IMEM changes only while the machine is stopped, by `load_program` or a host
write: a fetch sees the bytes loaded before the last `start()`. -/
def Obligations.NoInstructionWritesImem : Prop :=
  (∀ (i : Instr) (s t : State), exec i s = .next t → t.imem = s.imem) ∧
  (∀ s t : State, s.phase.isRunning = true → step s = .next t → t.imem = s.imem) ∧
  (∀ s t : State, step s = .next t → t.imem ≠ s.imem →
    s.phase.isRunning = false ∧
      ∃ c rest, s.commands = c :: rest ∧
        ((∃ image, c = .loadProgram image) ∨ (∃ a v, c = .write .imem a v) ∨ (∃ a v, c = .writeWord .imem a v)))

/-- R50: the two address spaces do not alias: a write to one leaves every read of the other as it was. -/
def Obligations.AddressSpacesDoNotAlias : Prop :=
  ∀ (s t : State) (sp sp' : Space) (a b : Addr) (v : Byte), sp' ≠ sp → s.writeByte sp a v = some t →
    t.readByte sp' b = s.readByte sp' b

/-- R56 (decision D24 for who uses it): a 16-bit value is stored big-endian, the high byte at the lower address, and a
word read gives back what a word write stored. -/
def Obligations.WordAccessIsBigEndian : Prop :=
  ∀ (s : State) (sp : Space) (a : Addr) (w : HalfWord), a.toNat + 1 < s.size sp →
    (∃ t, s.writeWord sp a w = some t ∧
      (t.mem sp).get a.toNat = BitVec.ofNat 8 (w.toNat / 256) ∧
      (t.mem sp).get (a.toNat + 1) = BitVec.ofNat 8 (w.toNat % 256) ∧
      t.readWord sp a = some w ∧
      ∀ b, b ≠ a.toNat → b ≠ a.toNat + 1 → (t.mem sp).get b = (s.mem sp).get b) ∧
    (∃ r, s.readWord sp a = some r ∧
      r.toNat = ((s.mem sp).get a.toNat).toNat * 256 + ((s.mem sp).get (a.toNat + 1)).toNat)

/-! ### Faults -/

/-- R232: fault entry, in one step: FAULT is written with IADDR as the instruction's address, RUNNING is cleared, PHASE
is FAULTED, `start()` returns Faulted(FAULT), and nothing else changes. -/
def Obligations.FaultEntryWritesReportOnly : Prop :=
  ∀ (s : State) (k : FaultKind) (sp : Space) (a : Addr) (op x : Byte) (known : Bool),
    s.raise k sp a op (if known then some x else none) =
      { s with
        fault := { kind := k, space := sp, addr := a, iaddr := s.iaddr, opcode := op, operandValid := known,
                   operand := if known then x else 0x00#8 },
        running := false, phase := .faulted,
        replies := s.replies ++ [.returned (.faulted
          { kind := k, space := sp, addr := a, iaddr := s.iaddr, opcode := op, operandValid := known,
            operand := if known then x else 0x00#8 })] }

/-- R234: FAULTED is left only by a successful `load_program`, which clears FAULT; `start()` does not leave it; while
FAULTED no instruction runs, so the record keeps the first fault of the run. -/
def Obligations.FaultedLastsUntilLoadProgram : Prop :=
  ∀ s : State, s.phase = .faulted →
    (∀ t, step s = .next t → t.phase ≠ .faulted →
      ∃ image rest, s.commands = .loadProgram image :: rest ∧ image.length ≤ s.cfg.imemSize ∧
        t.fault = FaultRecord.clear) ∧
    (∀ t, step s = .next t → t.phase = .faulted → t.fault = s.fault ∧ t.ir = s.ir ∧ t.fl = s.fl ∧ t.events = s.events) ∧
    (∀ rest, s.commands = .start :: rest →
      step s = .next { s with commands := rest, replies := s.replies ++ [.returned (.faulted s.fault)] }) ∧
    (∃ t, step s = .next t)

/-- R31 (with R120, decision D9): FAULT is written only by a fault, which ends in FAULTED, and cleared only by
`load_program`; and RUNNING and PHASE stay as R27 ties them. -/
def Obligations.FaultWrittenOnlyByFault : Prop :=
  ∀ s t : State, step s = .next t → t.fault ≠ s.fault →
    (s.phase.isRunning = true ∧ t.phase = .faulted ∧ t.running = false ∧ t.fault.kind ≠ .noFault) ∨
    (s.phase.isRunning = false ∧ t.phase = .loaded ∧ t.fault = FaultRecord.clear ∧
      ∃ image rest, s.commands = .loadProgram image :: rest)

/-- R233 (decision D11 for the emptied IR; D5, D6): faults are precise. A cycle that faults changes only what its
pseudocode writes before the raising line: ACC, both memories and the ports are as before. -/
def Obligations.FaultsArePrecise : Prop :=
  ∀ s t : State, s.phase = .fetch → cycle s = .next t → t.phase = .faulted →
    t.acc = s.acc ∧ t.imem = s.imem ∧ t.dmem = s.dmem ∧ t.events = s.events ∧ t.running = false ∧
    t.iaddr = s.pc ∧ t.fault.iaddr = s.pc ∧
    ((s.cfg.imemSize ≤ s.pc.toNat ∧ t.pc = s.pc ∧ t.fl = s.fl ∧ t.ir = s.ir ∧ t.fault.opcode = 0x00#8) ∨
     (s.pc.toNat < s.cfg.imemSize ∧ t.pc = BitVec.ofNat 8 ((s.pc.toNat + 2) % 256) ∧
       t.fl = s.imem.get s.pc.toNat ∧ t.fault.opcode = t.fl ∧
       ((t.fault.kind = .outOfBounds ∧ t.fault.space = .imem ∧ t.ir = s.ir) ∨
        (t.fault.kind = .invalidOpcode ∧ t.ir = InstrReg.empty) ∨
        (t.ir = { valid := true, op := t.fl, operand := s.imem.get (s.pc.toNat + 1) } ∧
          (t.fault.kind = .outOfBounds ∧ t.fault.space = .dmem ∨ t.fault.kind = .divisionByZero)))))

/-- R235 (decision D12): a cycle reports the first fault in phase order, then pseudocode order, and faults on nothing
else. -/
def Obligations.FirstFaultInPhaseOrderIsReported : Prop :=
  ∀ s t : State, s.phase = .fetch → cycle s = .next t →
    (s.cfg.imemSize ≤ s.pc.toNat →
      t.fault.kind = .outOfBounds ∧ t.fault.space = .imem ∧ t.fault.addr = BitVec.ofNat 32 s.pc.toNat) ∧
    (s.pc.toNat < s.cfg.imemSize → s.cfg.imemSize ≤ s.pc.toNat + 1 →
      t.fault.kind = .outOfBounds ∧ t.fault.space = .imem ∧ t.fault.addr = BitVec.ofNat 32 (s.pc.toNat + 1)) ∧
    (s.pc.toNat + 1 < s.cfg.imemSize → opcodeByteValid (s.imem.get s.pc.toNat) = false →
      t.fault.kind = .invalidOpcode) ∧
    (s.pc.toNat + 1 < s.cfg.imemSize → opcodeByteValid (s.imem.get s.pc.toNat) = true →
      (s.imem.get s.pc.toNat).toNat ≤ 0x06 → s.cfg.dmemSize ≤ (s.imem.get (s.pc.toNat + 1)).toNat →
      t.fault.kind = .outOfBounds ∧ t.fault.space = .dmem) ∧
    (s.pc.toNat + 1 < s.cfg.imemSize → s.imem.get s.pc.toNat = 0x04#8 →
      (s.imem.get (s.pc.toNat + 1)).toNat < s.cfg.dmemSize →
      s.dmem.get (s.imem.get (s.pc.toNat + 1)).toNat = 0x00#8 → t.fault.kind = .divisionByZero) ∧
    (s.pc.toNat + 1 < s.cfg.imemSize → opcodeByteValid (s.imem.get s.pc.toNat) = true →
      (0x06 < (s.imem.get s.pc.toNat).toNat ∨
        (s.imem.get (s.pc.toNat + 1)).toNat < s.cfg.dmemSize ∧
          (s.imem.get s.pc.toNat ≠ 0x04#8 ∨ s.dmem.get (s.imem.get (s.pc.toNat + 1)).toNat ≠ 0x00#8)) →
      t.phase ≠ .faulted ∧ t.fault = s.fault)

/-! ### Invariants, equivalence, noninterference -/

/-- Every step of the machine keeps the invariant (`State.Inv`: the parameters' ranges, the canonical form and bounds of
both memories, R27's tie of RUNNING and PHASE, IR empty or a valid opcode, R230's report fields, R21's PC, R124). -/
def Obligations.StepKeepsInvariant : Prop :=
  ∀ s t : State, s.Inv → step s = .next t → t.Inv

/-- The invariant holds at power-on for every legal value of the parameters, and at reset. -/
def Obligations.PowerOnMeetsInvariant : Prop :=
  (∀ c : Config, c.wellFormed = true → (State.powerOn c).Inv) ∧ State.reset.Inv

/-- R120, R124, R129, with the invariant: a step of a proper state never stops with a fault of the model, and it is refused
exactly in EXECUTE with DAT in IR (R221, opcode byte D1): every other step has a next state. -/
def Obligations.OnlyDatStopsAProperState : Prop :=
  ∀ s : State, s.Inv →
    (∃ t, step s = .next t) ∧ ¬ (s.phase = .execute ∧ s.ir.op = 0x11#8) ∨
    step s = .refused .datExecute ∧ s.phase = .execute ∧ s.ir.op = 0x11#8

/-- R88 (decision D19): the datapath that the decoder's control signals drive does exactly what the instruction rules
say, for every instruction that has signals; DAT alone has none. The next state is the fault's where the datapath
faults, and the waiting one where a port does not answer. -/
def Obligations.ControlSignalsAgreeWithInstructionRules : Prop :=
  ∀ (i : Instr) (s : State),
    (∀ c, controlSignals i.opcode = some c → exec i s = .next (datapath c i.opcode.byte i.operand s)) ∧
    (controlSignals i.opcode = none ↔ ∃ x, i = .dat x)

/-- R58, R61: EXECUTE makes at most the one DMEM access the arbiter grants: a byte at any other address has no influence
on the outcome and is left as it is. -/
def Obligations.ExecuteTouchesOnlyGrantedByte : Prop :=
  ∀ (i : Instr) (s t : State) (b : Addr) (v : Byte),
    executeAccess i ≠ some (.dmemRead b) → executeAccess i ≠ some (.dmemWrite b) → exec i s = .next t →
    ∃ m : Memory, exec i { s with dmem := s.dmem.set b.toNat v } = .next { t with dmem := m } ∧
      m.get b.toNat = v ∧ t.dmem.get b.toNat = s.dmem.get b.toNat ∧
      ∀ a : Nat, a ≠ b.toNat → m.get a = t.dmem.get a

/-- R33: FL, IR and IADDR are hidden from programs: what they hold before a cycle has no influence on a cycle that does
not fault. -/
def Obligations.LatchesAreHiddenFromPrograms : Prop :=
  ∀ (s t : State) (f x : Byte) (r : InstrReg), s.phase = .fetch → cycle s = .next t → t.phase ≠ .faulted →
    cycle { s with fl := f, iaddr := x, ir := r } = .next t

/-- R33, R129 (decision D26): while RUNNING = 1 the host's pending operations are neither carried out nor looked at. -/
def Obligations.HostOperationsWaitWhileRunning : Prop :=
  ∀ (s t : State) (cs : List HostCommand), s.phase.isRunning = true → step s = .next t →
    t.commands = s.commands ∧ step { s with commands := cs } = .next { t with commands := cs }

/-! ### Reset and the host's operations -/

/-- R35, R260 (decision D8 for the register and memory values, D9 for PHASE, D10 for FAULT; the parameters of
`State.reset` are the model's choice, log 2): power-on, for every value of the parameters. -/
def Obligations.PowerOnState : Prop :=
  ∀ c : Config,
    (State.powerOn c).pc = 0x00#8 ∧ (State.powerOn c).acc = 0x00#8 ∧ (State.powerOn c).fl = 0x00#8 ∧
    (State.powerOn c).iaddr = 0x00#8 ∧
    (State.powerOn c).ir = { valid := false, op := 0x00#8, operand := 0x00#8 } ∧
    (State.powerOn c).running = false ∧ (State.powerOn c).phase = .loaded ∧
    (State.powerOn c).fault = { kind := .noFault, space := .imem, addr := 0#32, iaddr := 0x00#8, opcode := 0x00#8,
                                operandValid := false, operand := 0x00#8 } ∧
    (∀ (sp : Space) (a : Addr), a.toNat < (State.powerOn c).size sp → (State.powerOn c).readByte sp a = some 0x00#8) ∧
    (∃ d : Config, State.reset = State.powerOn d)

/-- R261, R67 (decisions D17, D26, D29): `load_program` in a stopped phase. -/
def Obligations.LoadProgramFillsImem : Prop :=
  ∀ (s : State) (image : List Byte) (rest : List HostCommand),
    s.phase.isRunning = false → s.commands = .loadProgram image :: rest →
    (image.length ≤ s.cfg.imemSize →
      ∃ m : Memory,
        step s = .next { s with
          commands := rest, imem := m, pc := 0x00#8, running := false, phase := .loaded,
          fault := FaultRecord.clear, replies := s.replies ++ [.ok] } ∧
        (∀ (k : Nat) (h : k < image.length), m.get k = image[k]) ∧
        (∀ k, image.length ≤ k → m.get k = s.imem.get k)) ∧
    (s.cfg.imemSize < image.length →
      step s = .next { s with
        commands := rest, replies := s.replies ++ [.outOfBounds .imem (BitVec.ofNat 32 s.cfg.imemSize)] })

/-- R262, R67 (decisions D16, D17): `load_data` in a stopped phase: every register, PHASE and FAULT keep their values. -/
def Obligations.LoadDataFillsDmem : Prop :=
  ∀ (s : State) (image : List Byte) (rest : List HostCommand),
    s.phase.isRunning = false → s.commands = .loadData image :: rest →
    (image.length ≤ s.cfg.dmemSize →
      ∃ m : Memory,
        step s = .next { s with commands := rest, dmem := m, replies := s.replies ++ [.ok] } ∧
        (∀ (k : Nat) (h : k < image.length), m.get k = image[k]) ∧
        (∀ k, image.length ≤ k → m.get k = s.dmem.get k)) ∧
    (s.cfg.dmemSize < image.length →
      step s = .next { s with
        commands := rest, replies := s.replies ++ [.outOfBounds .dmem (BitVec.ofNat 32 s.cfg.dmemSize)] })

/-- R121 (decision D9): `start()` in LOADED runs the machine; in HALTED and FAULTED it changes nothing and returns the
current outcome at once. -/
def Obligations.StartRunsALoadedMachine : Prop :=
  ∀ (s : State) (rest : List HostCommand), s.commands = .start :: rest →
    (s.phase = .loaded → step s = .next { s with commands := rest, running := true, phase := .fetch }) ∧
    (s.phase = .halted →
      step s = .next { s with commands := rest, replies := s.replies ++ [.returned .halted] }) ∧
    (s.phase = .faulted →
      step s = .next { s with commands := rest, replies := s.replies ++ [.returned (.faulted s.fault)] })

/-- R33, R68 (decision D26; the reply Ok is the model's, log 6): in a stopped phase the host reads every register, IR,
the status and both memories, and writes PC, ACC and the memories, byte or word, and each operation does that alone.
The word accesses' own bytes are WordAccessIsBigEndian's. -/
def Obligations.HostInspectsAStoppedMachine : Prop :=
  ∀ (s : State) (rest : List HostCommand) (b : Byte) (sp : Space) (a : Addr), s.phase.isRunning = false →
    (s.commands = .getRegister .pc :: rest →
      step s = .next { s with commands := rest, replies := s.replies ++ [.byte s.pc] }) ∧
    (s.commands = .getRegister .acc :: rest →
      step s = .next { s with commands := rest, replies := s.replies ++ [.byte s.acc] }) ∧
    (s.commands = .getRegister .fl :: rest →
      step s = .next { s with commands := rest, replies := s.replies ++ [.byte s.fl] }) ∧
    (s.commands = .getRegister .iaddr :: rest →
      step s = .next { s with commands := rest, replies := s.replies ++ [.byte s.iaddr] }) ∧
    (s.commands = .getInstruction :: rest → s.ir.valid = false →
      step s = .next { s with commands := rest, replies := s.replies ++ [.instruction none] }) ∧
    (∀ i : Instr, s.commands = .getInstruction :: rest →
      s.ir = { valid := true, op := i.opcode.byte, operand := i.operand } →
      step s = .next { s with commands := rest, replies := s.replies ++ [.instruction (some i)] }) ∧
    (s.commands = .getStatus :: rest →
      step s = .next { s with commands := rest, replies := s.replies ++ [.status s.running s.phase s.fault] }) ∧
    (s.commands = .setPc b :: rest →
      step s = .next { s with commands := rest, pc := b, replies := s.replies ++ [.ok] }) ∧
    (s.commands = .setAcc b :: rest →
      step s = .next { s with commands := rest, acc := b, replies := s.replies ++ [.ok] }) ∧
    (s.commands = .read sp a :: rest → a.toNat < s.size sp →
      step s = .next { s with commands := rest, replies := s.replies ++ [.byte ((s.mem sp).get a.toNat)] }) ∧
    (s.commands = .write sp a b :: rest → a.toNat < s.size sp →
      ∃ t, step s = .next t ∧ t.replies = s.replies ++ [.ok] ∧ (t.mem sp).get a.toNat = b ∧
        (∀ (sp' : Space) (k : Nat), (sp' ≠ sp ∨ k ≠ a.toNat) → (t.mem sp').get k = (s.mem sp').get k) ∧
        t = { s with commands := rest, imem := t.imem, dmem := t.dmem, replies := t.replies }) ∧
    (∀ w : HalfWord, s.commands = .readWord sp a :: rest → s.readWord sp a = some w →
      step s = .next { s with commands := rest, replies := s.replies ++ [.word w] }) ∧
    (∀ (w : HalfWord) (t : State), s.commands = .writeWord sp a w :: rest → s.writeWord sp a w = some t →
      step s = .next { t with commands := rest, replies := s.replies ++ [.ok] })

/-- R243: nothing inside the block leaves LOADED, HALTED or FAULTED: with no host operation left, every register and both
memories keep their values, step after step. -/
def Obligations.StoppedStatesKeepEverything : Prop :=
  ∀ (s : State) (n : Nat), s.phase.isRunning = false → s.commands = [] → Reaches s n s

/-- The model's `withFetchWord` (log 7, log 14): where PC + 1 lies in IMEM, it is the state that FETCH and DECODE lead to
from the table word's bytes at PC, so that the very next step is `exec` of the instruction the decoder reads from the
word. -/
def Obligations.WithFetchWordRunsTheWord : Prop :=
  ∀ (s : State) (w : Nat) (i : Instr), s.pc.toNat + 1 < s.cfg.imemSize → decodeTableWord 16 w = some i →
    ∃ t, t = s.withFetchWord 16 w ∧ step t = exec i t ∧ t.phase = .execute ∧ t.running = true ∧ t.iaddr = s.pc ∧
      t.pc = BitVec.ofNat 8 ((s.pc.toNat + 2) % 256) ∧ t.acc = s.acc ∧ t.dmem = s.dmem ∧ t.fault = s.fault ∧
      t.ir = { valid := true, op := i.opcode.byte, operand := i.operand } ∧ t.fl = i.opcode.byte ∧
      t.imem.get s.pc.toNat = i.opcode.byte ∧ t.imem.get (s.pc.toNat + 1) = i.operand ∧
      Reaches ((s.placeBytes i.opcode.byte i.operand).setControl true .fetch) 2 t
end

