-- ==== Sys2Proof/Laws/Decode.lean ====
section
/-! SUPPORT. The small lemmas of the opcode map, the decoder and the encoder. -/

namespace Sys2Proof

@[simp] theorem Opcode.withOperand_opcode (o : Opcode) (x : Byte) : (o.withOperand x).opcode = o := by cases o <;> rfl

@[simp] theorem Opcode.withOperand_operand (o : Opcode) (x : Byte) : (o.withOperand x).operand = x := by cases o <;> rfl

@[simp] theorem Instr.opcode_withOperand (i : Instr) : i.opcode.withOperand i.operand = i := by cases i <;> rfl

/-- An opcode's byte decodes to it. -/
theorem decodeOpcode_byte (o : Opcode) : decodeOpcode o.byte = .ok o := by cases o <;> rfl

/-- Everything the opcode decoder can answer. -/
theorem decodeOpcode_cases (b : Byte) :
    (∃ o, decodeOpcode b = .ok o ∧ o.byte = b ∧ opcodeByteValid b = true) ∨
    (decodeOpcode b = .error (.invalidOpcode b) ∧ opcodeByteValid b = false) := by
  have h : ∀ b : Byte, (∃ o ∈ ([.add, .sub, .mul, .div, .sta, .lda, .jmp, .jeq, .jne, .jgt, .jlt, .jz, .jnz, .hlt,
      .inp, .out, .dat] : List Opcode), decodeOpcode b = .ok o ∧ o.byte = b ∧ opcodeByteValid b = true) ∨
      (decodeOpcode b = .error (.invalidOpcode b) ∧ opcodeByteValid b = false) := by
    decide
  rcases h b with ⟨o, -, ho⟩ | hb
  · exact .inl ⟨o, ho⟩
  · exact .inr hb

/-- The bytes of an instruction decode to it. -/
theorem decodeBytes_byte (o : Opcode) (x : Byte) : decodeBytes o.byte x = .ok (o.withOperand x) := by
  simp [decodeBytes, decodeOpcode_byte]

/-- Everything the decoder of two bytes can answer. -/
theorem decodeBytes_cases (b x : Byte) :
    (∃ o : Opcode, decodeBytes b x = .ok (o.withOperand x) ∧ o.byte = b ∧ opcodeByteValid b = true) ∨
    (decodeBytes b x = .error (.invalidOpcode b) ∧ opcodeByteValid b = false) := by
  rcases decodeOpcode_cases b with ⟨o, h, hb, hv⟩ | ⟨h, hv⟩
  · exact .inl ⟨o, by simp [decodeBytes, h], hb, hv⟩
  · exact .inr ⟨by simp [decodeBytes, h], hv⟩

end Sys2Proof
end

