-- ==== Sys2Proof/Laws/Memory.lean ====
section
/-! SUPPORT. The laws of the memory operations: a read after a write, every operation keeps the canonical form
(`Memory.wf`) and the bound (`Memory.below`), and two canonical memories that read alike are equal. -/

namespace Sys2Proof.Machine

@[simp] theorem Memory.get_nil (a : Nat) : Memory.get [] a = Memory.unlistedByte := rfl

@[simp] theorem Memory.get_cons (b : Nat) (v : Byte) (m : Memory) (a : Nat) :
    Memory.get ((b, v) :: m) a = if b = a then v else Memory.get m a := rfl

theorem Memory.mem_erase {m : Memory} {a : Nat} {c : Host.Cell} : c ∈ Memory.erase m a ↔ c ∈ m ∧ c.1 ≠ a := by
  simp [Memory.erase]

theorem Memory.get_erase (m : Memory) (a b : Nat) :
    (Memory.erase m a).get b = if b = a then Memory.unlistedByte else m.get b := by
  induction m with
  | nil => simp [Memory.erase]
  | cons c m ih =>
    obtain ⟨k, v⟩ := c
    unfold Memory.erase at ih ⊢
    by_cases hk : k = a <;> by_cases hb : b = a <;> simp_all
    intro h; omega

theorem Memory.get_insert (m : Memory) (a : Nat) (v : Byte) (h : ∀ c ∈ m, c.1 ≠ a) (b : Nat) :
    (Memory.insert m a v).get b = if b = a then v else m.get b := by
  induction m with
  | nil => simp [Memory.insert, eq_comm]
  | cons c m ih =>
    obtain ⟨k, w⟩ := c
    have hk : k ≠ a := h (k, w) (by simp)
    have ih := ih (fun c hc => h c (by simp [hc]))
    unfold Memory.insert
    split
    · simp [eq_comm]
    · by_cases hb : b = a
      · simp_all
      · simp [ih, hb]

/-- What every read gives after a write. -/
theorem Memory.get_set (m : Memory) (a : Nat) (v : Byte) (b : Nat) :
    (Memory.set m a v).get b = if b = a then v else m.get b := by
  unfold Memory.set
  split
  · rename_i hv
    rw [Memory.get_erase, hv]
  · rw [Memory.get_insert _ _ _ (fun c hc => (Memory.mem_erase.mp hc).2), Memory.get_erase]
    split <;> simp_all

@[simp] theorem Memory.get_set_same (m : Memory) (a : Nat) (v : Byte) : (Memory.set m a v).get a = v := by
  simp [Memory.get_set]

theorem Memory.get_set_other (m : Memory) {a b : Nat} (v : Byte) (h : b ≠ a) :
    (Memory.set m a v).get b = m.get b := by
  simp [Memory.get_set, h]

theorem Memory.mem_insert {m : Memory} {a : Nat} {v : Byte} {c : Host.Cell} :
    c ∈ Memory.insert m a v ↔ c = (a, v) ∨ c ∈ m := by
  induction m with
  | nil => simp [Memory.insert]
  | cons d m ih =>
    obtain ⟨k, w⟩ := d
    unfold Memory.insert
    split
    · simp
    · simp only [List.mem_cons, ih]
      tauto

theorem Memory.pairwise_insert {m : Memory} {a : Nat} {v : Byte}
    (hm : m.Pairwise (fun x y => x.1 < y.1)) (h : ∀ c ∈ m, c.1 ≠ a) :
    (Memory.insert m a v).Pairwise (fun x y => x.1 < y.1) := by
  induction m with
  | nil => simp [Memory.insert]
  | cons d m ih =>
    obtain ⟨k, w⟩ := d
    obtain ⟨hd, hm'⟩ := List.pairwise_cons.mp hm
    unfold Memory.insert
    split
    · rename_i hak
      refine List.pairwise_cons.mpr ⟨fun c hc => ?_, hm⟩
      rcases List.mem_cons.mp hc with rfl | hc
      · exact hak
      · exact lt_trans hak (hd c hc)
    · rename_i hak
      have hka : k ≠ a := h (k, w) (by simp)
      refine List.pairwise_cons.mpr ⟨fun c hc => ?_, ih hm' (fun c hc => h c (by simp [hc]))⟩
      rcases Memory.mem_insert.mp hc with rfl | hc
      · show k < a
        omega
      · exact hd c hc

/-- A write keeps the canonical form. -/
theorem Memory.set_wf {m : Memory} (h : m.wf) (a : Nat) (v : Byte) : (Memory.set m a v).wf := by
  obtain ⟨hp, hv⟩ := h
  have hpe : (Memory.erase m a).Pairwise (fun x y => x.1 < y.1) := hp.filter _
  unfold Memory.set
  split
  · exact ⟨hpe, fun c hc => hv c (Memory.mem_erase.mp hc).1⟩
  · rename_i hne
    refine ⟨Memory.pairwise_insert hpe (fun c hc => (Memory.mem_erase.mp hc).2), fun c hc => ?_⟩
    rcases Memory.mem_insert.mp hc with rfl | hc
    · exact hne
    · exact hv c (Memory.mem_erase.mp hc).1

/-- A write inside the memory's size lists nothing outside it. -/
theorem Memory.set_below {m : Memory} {n : Nat} (h : m.below n) {a : Nat} (ha : a < n) (v : Byte) :
    (Memory.set m a v).below n := by
  intro c hc
  unfold Memory.set at hc
  split at hc
  · exact h c (Memory.mem_erase.mp hc).1
  · rcases Memory.mem_insert.mp hc with rfl | hc
    · exact ha
    · exact h c (Memory.mem_erase.mp hc).1

/-- An image keeps the canonical form. -/
theorem Memory.load_wf {m : Memory} (h : m.wf) (a : Nat) (image : List Byte) : (Memory.load m a image).wf := by
  induction image generalizing m a with
  | nil => exact h
  | cons v image ih => exact ih (Memory.set_wf h a v) (a + 1)

/-- An image that fits lists nothing outside the memory. -/
theorem Memory.load_below {m : Memory} {n : Nat} (h : m.below n) (a : Nat) (image : List Byte)
    (hn : a + image.length ≤ n) : (Memory.load m a image).below n := by
  induction image generalizing m a with
  | nil => exact h
  | cons v image ih =>
    rw [List.length_cons] at hn
    exact ih (Memory.set_below h (by omega) v) (a + 1) (by omega)

/-- A read outside an image gives what it gave before. -/
theorem Memory.get_load_other (m : Memory) (a : Nat) (image : List Byte) {b : Nat}
    (h : b < a ∨ a + image.length ≤ b) : (Memory.load m a image).get b = m.get b := by
  induction image generalizing m a with
  | nil => rfl
  | cons v image ih =>
    rw [List.length_cons] at h
    rw [Memory.load, ih _ _ (by omega), Memory.get_set_other _ _ (by omega)]

/-- A read inside an image gives the image's byte. -/
theorem Memory.get_load_image (m : Memory) (a : Nat) (image : List Byte) {k : Nat} (h : k < image.length) :
    (Memory.load m a image).get (a + k) = image[k] := by
  induction image generalizing m a k with
  | nil => simp at h
  | cons v image ih =>
    cases k with
    | zero =>
      rw [Memory.load, Memory.get_load_other _ _ _ (by omega)]
      simp
    | succ k =>
      rw [List.length_cons] at h
      rw [Memory.load, show a + (k + 1) = a + 1 + k by omega, ih _ _ (by omega)]
      simp

theorem Memory.get_of_not_listed {m : Memory} {a : Nat} (h : ∀ c ∈ m, c.1 ≠ a) : m.get a = Memory.unlistedByte := by
  induction m with
  | nil => rfl
  | cons c m ih =>
    obtain ⟨k, v⟩ := c
    have hk : k ≠ a := h (k, v) (by simp)
    simp [hk, ih (fun c hc => h c (by simp [hc]))]

/-- Canonical memories are equal data when they read alike. -/
theorem Memory.ext_of_wf {m n : Memory} (hm : m.wf) (hn : n.wf) (h : ∀ a, m.get a = n.get a) : m = n := by
  induction m generalizing n with
  | nil =>
    cases n with
    | nil => rfl
    | cons c n =>
      obtain ⟨k, v⟩ := c
      have := h k
      exact absurd (by simpa using this.symm) (hn.2 (k, v) (by simp))
  | cons c m ih =>
    obtain ⟨k, v⟩ := c
    cases n with
    | nil => exact absurd (by simpa using h k) (hm.2 (k, v) (by simp))
    | cons d n =>
      obtain ⟨l, w⟩ := d
      obtain ⟨hkm, hpm⟩ := List.pairwise_cons.mp hm.1
      obtain ⟨hln, hpn⟩ := List.pairwise_cons.mp hn.1
      have hm0 : ∀ j, j ≤ k → Memory.get m j = Memory.unlistedByte := fun j hj =>
        Memory.get_of_not_listed (fun c hc => by have := hkm c hc; simp at this; omega)
      have hn0 : ∀ j, j ≤ l → Memory.get n j = Memory.unlistedByte := fun j hj =>
        Memory.get_of_not_listed (fun c hc => by have := hln c hc; simp at this; omega)
      have hv : v ≠ Memory.unlistedByte := hm.2 (k, v) (by simp)
      have hw : w ≠ Memory.unlistedByte := hn.2 (l, w) (by simp)
      have hkl : k = l := by
        rcases lt_trichotomy k l with hlt | heq | hgt
        · have := h k
          simp [show l ≠ k by omega, hn0 k (by omega)] at this
          exact absurd this hv
        · exact heq
        · have := h l
          simp [show k ≠ l by omega, hm0 l (by omega)] at this
          exact absurd this.symm hw
      subst hkl
      have hvw : v = w := by simpa using h k
      subst hvw
      congr 1
      refine ih ⟨hpm, fun c hc => hm.2 c (by simp [hc])⟩ ⟨hpn, fun c hc => hn.2 c (by simp [hc])⟩ fun a => ?_
      by_cases hak : k = a
      · subst hak
        rw [hm0 _ le_rfl, hn0 _ le_rfl]
      · simpa [hak] using h a

end Sys2Proof.Machine
end

