-- ==== Sys2Proof/Laws/State.lean ====
section
/-! SUPPORT. What each named update of State does to each field, one lemma each, true by rfl: no later proof unfolds a
record update. -/

namespace Sys2Proof.Machine

variable (s : State)

/-! ### setPc -/

@[simp] theorem State.setPc_cfg (v : Byte) : (s.setPc v).cfg = s.cfg := rfl
@[simp] theorem State.setPc_pc (v : Byte) : (s.setPc v).pc = v := rfl
@[simp] theorem State.setPc_acc (v : Byte) : (s.setPc v).acc = s.acc := rfl
@[simp] theorem State.setPc_fl (v : Byte) : (s.setPc v).fl = s.fl := rfl
@[simp] theorem State.setPc_ir (v : Byte) : (s.setPc v).ir = s.ir := rfl
@[simp] theorem State.setPc_iaddr (v : Byte) : (s.setPc v).iaddr = s.iaddr := rfl
@[simp] theorem State.setPc_running (v : Byte) : (s.setPc v).running = s.running := rfl
@[simp] theorem State.setPc_phase (v : Byte) : (s.setPc v).phase = s.phase := rfl
@[simp] theorem State.setPc_fault (v : Byte) : (s.setPc v).fault = s.fault := rfl
@[simp] theorem State.setPc_imem (v : Byte) : (s.setPc v).imem = s.imem := rfl
@[simp] theorem State.setPc_dmem (v : Byte) : (s.setPc v).dmem = s.dmem := rfl
@[simp] theorem State.setPc_commands (v : Byte) : (s.setPc v).commands = s.commands := rfl
@[simp] theorem State.setPc_inPort (v : Byte) : (s.setPc v).inPort = s.inPort := rfl
@[simp] theorem State.setPc_outPort (v : Byte) : (s.setPc v).outPort = s.outPort := rfl
@[simp] theorem State.setPc_events (v : Byte) : (s.setPc v).events = s.events := rfl
@[simp] theorem State.setPc_replies (v : Byte) : (s.setPc v).replies = s.replies := rfl

/-! ### setAcc -/

@[simp] theorem State.setAcc_cfg (v : Byte) : (s.setAcc v).cfg = s.cfg := rfl
@[simp] theorem State.setAcc_pc (v : Byte) : (s.setAcc v).pc = s.pc := rfl
@[simp] theorem State.setAcc_acc (v : Byte) : (s.setAcc v).acc = v := rfl
@[simp] theorem State.setAcc_fl (v : Byte) : (s.setAcc v).fl = s.fl := rfl
@[simp] theorem State.setAcc_ir (v : Byte) : (s.setAcc v).ir = s.ir := rfl
@[simp] theorem State.setAcc_iaddr (v : Byte) : (s.setAcc v).iaddr = s.iaddr := rfl
@[simp] theorem State.setAcc_running (v : Byte) : (s.setAcc v).running = s.running := rfl
@[simp] theorem State.setAcc_phase (v : Byte) : (s.setAcc v).phase = s.phase := rfl
@[simp] theorem State.setAcc_fault (v : Byte) : (s.setAcc v).fault = s.fault := rfl
@[simp] theorem State.setAcc_imem (v : Byte) : (s.setAcc v).imem = s.imem := rfl
@[simp] theorem State.setAcc_dmem (v : Byte) : (s.setAcc v).dmem = s.dmem := rfl
@[simp] theorem State.setAcc_commands (v : Byte) : (s.setAcc v).commands = s.commands := rfl
@[simp] theorem State.setAcc_inPort (v : Byte) : (s.setAcc v).inPort = s.inPort := rfl
@[simp] theorem State.setAcc_outPort (v : Byte) : (s.setAcc v).outPort = s.outPort := rfl
@[simp] theorem State.setAcc_events (v : Byte) : (s.setAcc v).events = s.events := rfl
@[simp] theorem State.setAcc_replies (v : Byte) : (s.setAcc v).replies = s.replies := rfl

/-! ### setIaddr -/

@[simp] theorem State.setIaddr_cfg (v : Byte) : (s.setIaddr v).cfg = s.cfg := rfl
@[simp] theorem State.setIaddr_pc (v : Byte) : (s.setIaddr v).pc = s.pc := rfl
@[simp] theorem State.setIaddr_acc (v : Byte) : (s.setIaddr v).acc = s.acc := rfl
@[simp] theorem State.setIaddr_fl (v : Byte) : (s.setIaddr v).fl = s.fl := rfl
@[simp] theorem State.setIaddr_ir (v : Byte) : (s.setIaddr v).ir = s.ir := rfl
@[simp] theorem State.setIaddr_iaddr (v : Byte) : (s.setIaddr v).iaddr = v := rfl
@[simp] theorem State.setIaddr_running (v : Byte) : (s.setIaddr v).running = s.running := rfl
@[simp] theorem State.setIaddr_phase (v : Byte) : (s.setIaddr v).phase = s.phase := rfl
@[simp] theorem State.setIaddr_fault (v : Byte) : (s.setIaddr v).fault = s.fault := rfl
@[simp] theorem State.setIaddr_imem (v : Byte) : (s.setIaddr v).imem = s.imem := rfl
@[simp] theorem State.setIaddr_dmem (v : Byte) : (s.setIaddr v).dmem = s.dmem := rfl
@[simp] theorem State.setIaddr_commands (v : Byte) : (s.setIaddr v).commands = s.commands := rfl
@[simp] theorem State.setIaddr_inPort (v : Byte) : (s.setIaddr v).inPort = s.inPort := rfl
@[simp] theorem State.setIaddr_outPort (v : Byte) : (s.setIaddr v).outPort = s.outPort := rfl
@[simp] theorem State.setIaddr_events (v : Byte) : (s.setIaddr v).events = s.events := rfl
@[simp] theorem State.setIaddr_replies (v : Byte) : (s.setIaddr v).replies = s.replies := rfl

/-! ### setFl -/

@[simp] theorem State.setFl_cfg (v : Byte) : (s.setFl v).cfg = s.cfg := rfl
@[simp] theorem State.setFl_pc (v : Byte) : (s.setFl v).pc = s.pc := rfl
@[simp] theorem State.setFl_acc (v : Byte) : (s.setFl v).acc = s.acc := rfl
@[simp] theorem State.setFl_fl (v : Byte) : (s.setFl v).fl = v := rfl
@[simp] theorem State.setFl_ir (v : Byte) : (s.setFl v).ir = s.ir := rfl
@[simp] theorem State.setFl_iaddr (v : Byte) : (s.setFl v).iaddr = s.iaddr := rfl
@[simp] theorem State.setFl_running (v : Byte) : (s.setFl v).running = s.running := rfl
@[simp] theorem State.setFl_phase (v : Byte) : (s.setFl v).phase = s.phase := rfl
@[simp] theorem State.setFl_fault (v : Byte) : (s.setFl v).fault = s.fault := rfl
@[simp] theorem State.setFl_imem (v : Byte) : (s.setFl v).imem = s.imem := rfl
@[simp] theorem State.setFl_dmem (v : Byte) : (s.setFl v).dmem = s.dmem := rfl
@[simp] theorem State.setFl_commands (v : Byte) : (s.setFl v).commands = s.commands := rfl
@[simp] theorem State.setFl_inPort (v : Byte) : (s.setFl v).inPort = s.inPort := rfl
@[simp] theorem State.setFl_outPort (v : Byte) : (s.setFl v).outPort = s.outPort := rfl
@[simp] theorem State.setFl_events (v : Byte) : (s.setFl v).events = s.events := rfl
@[simp] theorem State.setFl_replies (v : Byte) : (s.setFl v).replies = s.replies := rfl

/-! ### setIr -/

@[simp] theorem State.setIr_cfg (r : InstrReg) : (s.setIr r).cfg = s.cfg := rfl
@[simp] theorem State.setIr_pc (r : InstrReg) : (s.setIr r).pc = s.pc := rfl
@[simp] theorem State.setIr_acc (r : InstrReg) : (s.setIr r).acc = s.acc := rfl
@[simp] theorem State.setIr_fl (r : InstrReg) : (s.setIr r).fl = s.fl := rfl
@[simp] theorem State.setIr_ir (r : InstrReg) : (s.setIr r).ir = r := rfl
@[simp] theorem State.setIr_iaddr (r : InstrReg) : (s.setIr r).iaddr = s.iaddr := rfl
@[simp] theorem State.setIr_running (r : InstrReg) : (s.setIr r).running = s.running := rfl
@[simp] theorem State.setIr_phase (r : InstrReg) : (s.setIr r).phase = s.phase := rfl
@[simp] theorem State.setIr_fault (r : InstrReg) : (s.setIr r).fault = s.fault := rfl
@[simp] theorem State.setIr_imem (r : InstrReg) : (s.setIr r).imem = s.imem := rfl
@[simp] theorem State.setIr_dmem (r : InstrReg) : (s.setIr r).dmem = s.dmem := rfl
@[simp] theorem State.setIr_commands (r : InstrReg) : (s.setIr r).commands = s.commands := rfl
@[simp] theorem State.setIr_inPort (r : InstrReg) : (s.setIr r).inPort = s.inPort := rfl
@[simp] theorem State.setIr_outPort (r : InstrReg) : (s.setIr r).outPort = s.outPort := rfl
@[simp] theorem State.setIr_events (r : InstrReg) : (s.setIr r).events = s.events := rfl
@[simp] theorem State.setIr_replies (r : InstrReg) : (s.setIr r).replies = s.replies := rfl

/-! ### setControl -/

@[simp] theorem State.setControl_cfg (b : Bool) (p : Phase) : (s.setControl b p).cfg = s.cfg := rfl
@[simp] theorem State.setControl_pc (b : Bool) (p : Phase) : (s.setControl b p).pc = s.pc := rfl
@[simp] theorem State.setControl_acc (b : Bool) (p : Phase) : (s.setControl b p).acc = s.acc := rfl
@[simp] theorem State.setControl_fl (b : Bool) (p : Phase) : (s.setControl b p).fl = s.fl := rfl
@[simp] theorem State.setControl_ir (b : Bool) (p : Phase) : (s.setControl b p).ir = s.ir := rfl
@[simp] theorem State.setControl_iaddr (b : Bool) (p : Phase) : (s.setControl b p).iaddr = s.iaddr := rfl
@[simp] theorem State.setControl_running (b : Bool) (p : Phase) : (s.setControl b p).running = b := rfl
@[simp] theorem State.setControl_phase (b : Bool) (p : Phase) : (s.setControl b p).phase = p := rfl
@[simp] theorem State.setControl_fault (b : Bool) (p : Phase) : (s.setControl b p).fault = s.fault := rfl
@[simp] theorem State.setControl_imem (b : Bool) (p : Phase) : (s.setControl b p).imem = s.imem := rfl
@[simp] theorem State.setControl_dmem (b : Bool) (p : Phase) : (s.setControl b p).dmem = s.dmem := rfl
@[simp] theorem State.setControl_commands (b : Bool) (p : Phase) : (s.setControl b p).commands = s.commands := rfl
@[simp] theorem State.setControl_inPort (b : Bool) (p : Phase) : (s.setControl b p).inPort = s.inPort := rfl
@[simp] theorem State.setControl_outPort (b : Bool) (p : Phase) : (s.setControl b p).outPort = s.outPort := rfl
@[simp] theorem State.setControl_events (b : Bool) (p : Phase) : (s.setControl b p).events = s.events := rfl
@[simp] theorem State.setControl_replies (b : Bool) (p : Phase) : (s.setControl b p).replies = s.replies := rfl

/-! ### setFault -/

@[simp] theorem State.setFault_cfg (r : FaultRecord) : (s.setFault r).cfg = s.cfg := rfl
@[simp] theorem State.setFault_pc (r : FaultRecord) : (s.setFault r).pc = s.pc := rfl
@[simp] theorem State.setFault_acc (r : FaultRecord) : (s.setFault r).acc = s.acc := rfl
@[simp] theorem State.setFault_fl (r : FaultRecord) : (s.setFault r).fl = s.fl := rfl
@[simp] theorem State.setFault_ir (r : FaultRecord) : (s.setFault r).ir = s.ir := rfl
@[simp] theorem State.setFault_iaddr (r : FaultRecord) : (s.setFault r).iaddr = s.iaddr := rfl
@[simp] theorem State.setFault_running (r : FaultRecord) : (s.setFault r).running = s.running := rfl
@[simp] theorem State.setFault_phase (r : FaultRecord) : (s.setFault r).phase = s.phase := rfl
@[simp] theorem State.setFault_fault (r : FaultRecord) : (s.setFault r).fault = r := rfl
@[simp] theorem State.setFault_imem (r : FaultRecord) : (s.setFault r).imem = s.imem := rfl
@[simp] theorem State.setFault_dmem (r : FaultRecord) : (s.setFault r).dmem = s.dmem := rfl
@[simp] theorem State.setFault_commands (r : FaultRecord) : (s.setFault r).commands = s.commands := rfl
@[simp] theorem State.setFault_inPort (r : FaultRecord) : (s.setFault r).inPort = s.inPort := rfl
@[simp] theorem State.setFault_outPort (r : FaultRecord) : (s.setFault r).outPort = s.outPort := rfl
@[simp] theorem State.setFault_events (r : FaultRecord) : (s.setFault r).events = s.events := rfl
@[simp] theorem State.setFault_replies (r : FaultRecord) : (s.setFault r).replies = s.replies := rfl

/-! ### reply -/

@[simp] theorem State.reply_cfg (r : HostReply) : (s.reply r).cfg = s.cfg := rfl
@[simp] theorem State.reply_pc (r : HostReply) : (s.reply r).pc = s.pc := rfl
@[simp] theorem State.reply_acc (r : HostReply) : (s.reply r).acc = s.acc := rfl
@[simp] theorem State.reply_fl (r : HostReply) : (s.reply r).fl = s.fl := rfl
@[simp] theorem State.reply_ir (r : HostReply) : (s.reply r).ir = s.ir := rfl
@[simp] theorem State.reply_iaddr (r : HostReply) : (s.reply r).iaddr = s.iaddr := rfl
@[simp] theorem State.reply_running (r : HostReply) : (s.reply r).running = s.running := rfl
@[simp] theorem State.reply_phase (r : HostReply) : (s.reply r).phase = s.phase := rfl
@[simp] theorem State.reply_fault (r : HostReply) : (s.reply r).fault = s.fault := rfl
@[simp] theorem State.reply_imem (r : HostReply) : (s.reply r).imem = s.imem := rfl
@[simp] theorem State.reply_dmem (r : HostReply) : (s.reply r).dmem = s.dmem := rfl
@[simp] theorem State.reply_commands (r : HostReply) : (s.reply r).commands = s.commands := rfl
@[simp] theorem State.reply_inPort (r : HostReply) : (s.reply r).inPort = s.inPort := rfl
@[simp] theorem State.reply_outPort (r : HostReply) : (s.reply r).outPort = s.outPort := rfl
@[simp] theorem State.reply_events (r : HostReply) : (s.reply r).events = s.events := rfl
@[simp] theorem State.reply_replies (r : HostReply) : (s.reply r).replies = s.replies ++ [r] := rfl

/-! ### record -/

@[simp] theorem State.record_cfg (e : PortEvent) : (s.record e).cfg = s.cfg := rfl
@[simp] theorem State.record_pc (e : PortEvent) : (s.record e).pc = s.pc := rfl
@[simp] theorem State.record_acc (e : PortEvent) : (s.record e).acc = s.acc := rfl
@[simp] theorem State.record_fl (e : PortEvent) : (s.record e).fl = s.fl := rfl
@[simp] theorem State.record_ir (e : PortEvent) : (s.record e).ir = s.ir := rfl
@[simp] theorem State.record_iaddr (e : PortEvent) : (s.record e).iaddr = s.iaddr := rfl
@[simp] theorem State.record_running (e : PortEvent) : (s.record e).running = s.running := rfl
@[simp] theorem State.record_phase (e : PortEvent) : (s.record e).phase = s.phase := rfl
@[simp] theorem State.record_fault (e : PortEvent) : (s.record e).fault = s.fault := rfl
@[simp] theorem State.record_imem (e : PortEvent) : (s.record e).imem = s.imem := rfl
@[simp] theorem State.record_dmem (e : PortEvent) : (s.record e).dmem = s.dmem := rfl
@[simp] theorem State.record_commands (e : PortEvent) : (s.record e).commands = s.commands := rfl
@[simp] theorem State.record_inPort (e : PortEvent) : (s.record e).inPort = s.inPort := rfl
@[simp] theorem State.record_outPort (e : PortEvent) : (s.record e).outPort = s.outPort := rfl
@[simp] theorem State.record_events (e : PortEvent) : (s.record e).events = s.events ++ [e] := rfl
@[simp] theorem State.record_replies (e : PortEvent) : (s.record e).replies = s.replies := rfl

/-! ### endExecute -/

@[simp] theorem State.endExecute_cfg : s.endExecute.cfg = s.cfg := rfl
@[simp] theorem State.endExecute_pc : s.endExecute.pc = s.pc := rfl
@[simp] theorem State.endExecute_acc : s.endExecute.acc = s.acc := rfl
@[simp] theorem State.endExecute_fl : s.endExecute.fl = s.fl := rfl
@[simp] theorem State.endExecute_ir : s.endExecute.ir = s.ir := rfl
@[simp] theorem State.endExecute_iaddr : s.endExecute.iaddr = s.iaddr := rfl
@[simp] theorem State.endExecute_running : s.endExecute.running = s.running := rfl
@[simp] theorem State.endExecute_phase : s.endExecute.phase = .fetch := rfl
@[simp] theorem State.endExecute_fault : s.endExecute.fault = s.fault := rfl
@[simp] theorem State.endExecute_imem : s.endExecute.imem = s.imem := rfl
@[simp] theorem State.endExecute_dmem : s.endExecute.dmem = s.dmem := rfl
@[simp] theorem State.endExecute_commands : s.endExecute.commands = s.commands := rfl
@[simp] theorem State.endExecute_inPort : s.endExecute.inPort = s.inPort := rfl
@[simp] theorem State.endExecute_outPort : s.endExecute.outPort = s.outPort := rfl
@[simp] theorem State.endExecute_events : s.endExecute.events = s.events := rfl
@[simp] theorem State.endExecute_replies : s.endExecute.replies = s.replies := rfl

/-! ### halt -/

@[simp] theorem State.halt_cfg : s.halt.cfg = s.cfg := rfl
@[simp] theorem State.halt_pc : s.halt.pc = s.pc := rfl
@[simp] theorem State.halt_acc : s.halt.acc = s.acc := rfl
@[simp] theorem State.halt_fl : s.halt.fl = s.fl := rfl
@[simp] theorem State.halt_ir : s.halt.ir = s.ir := rfl
@[simp] theorem State.halt_iaddr : s.halt.iaddr = s.iaddr := rfl
@[simp] theorem State.halt_running : s.halt.running = false := rfl
@[simp] theorem State.halt_phase : s.halt.phase = .halted := rfl
@[simp] theorem State.halt_fault : s.halt.fault = s.fault := rfl
@[simp] theorem State.halt_imem : s.halt.imem = s.imem := rfl
@[simp] theorem State.halt_dmem : s.halt.dmem = s.dmem := rfl
@[simp] theorem State.halt_commands : s.halt.commands = s.commands := rfl
@[simp] theorem State.halt_inPort : s.halt.inPort = s.inPort := rfl
@[simp] theorem State.halt_outPort : s.halt.outPort = s.outPort := rfl
@[simp] theorem State.halt_events : s.halt.events = s.events := rfl
@[simp] theorem State.halt_replies : s.halt.replies = s.replies ++ [.returned .halted] := rfl

/-! ### raise -/

section

variable (k : FaultKind) (sp : Space) (a : Addr) (op : Byte) (x : Option Byte)

@[simp] theorem State.raise_cfg : (s.raise k sp a op x).cfg = s.cfg := rfl
@[simp] theorem State.raise_pc : (s.raise k sp a op x).pc = s.pc := rfl
@[simp] theorem State.raise_acc : (s.raise k sp a op x).acc = s.acc := rfl
@[simp] theorem State.raise_fl : (s.raise k sp a op x).fl = s.fl := rfl
@[simp] theorem State.raise_ir : (s.raise k sp a op x).ir = s.ir := rfl
@[simp] theorem State.raise_iaddr : (s.raise k sp a op x).iaddr = s.iaddr := rfl
@[simp] theorem State.raise_running : (s.raise k sp a op x).running = false := rfl
@[simp] theorem State.raise_phase : (s.raise k sp a op x).phase = .faulted := rfl
@[simp] theorem State.raise_imem : (s.raise k sp a op x).imem = s.imem := rfl
@[simp] theorem State.raise_dmem : (s.raise k sp a op x).dmem = s.dmem := rfl
@[simp] theorem State.raise_commands : (s.raise k sp a op x).commands = s.commands := rfl
@[simp] theorem State.raise_inPort : (s.raise k sp a op x).inPort = s.inPort := rfl
@[simp] theorem State.raise_outPort : (s.raise k sp a op x).outPort = s.outPort := rfl
@[simp] theorem State.raise_events : (s.raise k sp a op x).events = s.events := rfl
@[simp] theorem State.raise_fault : (s.raise k sp a op x).fault =
    { kind := k, space := sp, addr := a, iaddr := s.iaddr, opcode := op, operandValid := x.isSome,
      operand := x.getD 0x00#8 } := rfl
@[simp] theorem State.raise_replies : (s.raise k sp a op x).replies =
    s.replies ++ [.returned (.faulted (s.raise k sp a op x).fault)] := rfl

end

/-! ### setMem -/

section

variable (sp : Space) (m : Memory)

@[simp] theorem State.setMem_cfg : (s.setMem sp m).cfg = s.cfg := by cases sp <;> rfl
@[simp] theorem State.setMem_pc : (s.setMem sp m).pc = s.pc := by cases sp <;> rfl
@[simp] theorem State.setMem_acc : (s.setMem sp m).acc = s.acc := by cases sp <;> rfl
@[simp] theorem State.setMem_fl : (s.setMem sp m).fl = s.fl := by cases sp <;> rfl
@[simp] theorem State.setMem_ir : (s.setMem sp m).ir = s.ir := by cases sp <;> rfl
@[simp] theorem State.setMem_iaddr : (s.setMem sp m).iaddr = s.iaddr := by cases sp <;> rfl
@[simp] theorem State.setMem_running : (s.setMem sp m).running = s.running := by cases sp <;> rfl
@[simp] theorem State.setMem_phase : (s.setMem sp m).phase = s.phase := by cases sp <;> rfl
@[simp] theorem State.setMem_fault : (s.setMem sp m).fault = s.fault := by cases sp <;> rfl
@[simp] theorem State.setMem_commands : (s.setMem sp m).commands = s.commands := by cases sp <;> rfl
@[simp] theorem State.setMem_inPort : (s.setMem sp m).inPort = s.inPort := by cases sp <;> rfl
@[simp] theorem State.setMem_outPort : (s.setMem sp m).outPort = s.outPort := by cases sp <;> rfl
@[simp] theorem State.setMem_events : (s.setMem sp m).events = s.events := by cases sp <;> rfl
@[simp] theorem State.setMem_replies : (s.setMem sp m).replies = s.replies := by cases sp <;> rfl
@[simp] theorem State.setMem_imem_imem_bytes : (s.setMem .imem m).imem = m := rfl
@[simp] theorem State.setMem_imem_dmem_bytes : (s.setMem .imem m).dmem = s.dmem := rfl
@[simp] theorem State.setMem_dmem_imem_bytes : (s.setMem .dmem m).imem = s.imem := rfl
@[simp] theorem State.setMem_dmem_dmem_bytes : (s.setMem .dmem m).dmem = m := rfl

end

/-! ### Reads of a memory by its space -/

@[simp] theorem State.mem_imem : s.mem .imem = s.imem := rfl
@[simp] theorem State.mem_dmem : s.mem .dmem = s.dmem := rfl
@[simp] theorem State.size_imem : s.size .imem = s.cfg.imemSize := rfl
@[simp] theorem State.size_dmem : s.size .dmem = s.cfg.dmemSize := rfl

@[simp] theorem State.setMem_mem (sp : Space) (m : Memory) : (s.setMem sp m).mem sp = m := by cases sp <;> rfl

@[simp] theorem State.setMem_size (sp sp' : Space) (m : Memory) : (s.setMem sp m).size sp' = s.size sp' := by
  cases sp' <;> simp [State.size]

theorem State.setMem_mem_of_ne (sp sp' : Space) (m : Memory) (h : sp' ≠ sp) : (s.setMem sp m).mem sp' = s.mem sp' := by
  cases sp <;> cases sp' <;> first | rfl | exact absurd rfl h

end Sys2Proof.Machine
end

