-- ==== Sys2Proof/Laws/Ops.lean ====
section
/-! SUPPORT. For each shared operation, once, everything it can do. -/

namespace Sys2Proof.Machine

/-! ### Memory accesses -/

theorem State.inBounds_one (s : State) (sp : Space) (a : Addr) :
    s.inBounds sp a 1 = decide (a.toNat < s.size sp) := by
  simp [State.inBounds]

theorem State.inBounds_two (s : State) (sp : Space) (a : Addr) :
    s.inBounds sp a 2 = decide (a.toNat + 1 < s.size sp) := by
  simp [State.inBounds]

theorem State.readByte_eq (s : State) (sp : Space) (a : Addr) :
    s.readByte sp a = if a.toNat < s.size sp then some ((s.mem sp).get a.toNat) else none := by
  simp [State.readByte, State.inBounds_one]

theorem State.readByte_eq_some {s : State} {sp : Space} {a : Addr} {b : Byte} :
    s.readByte sp a = some b ↔ a.toNat < s.size sp ∧ (s.mem sp).get a.toNat = b := by
  rw [State.readByte_eq]
  split <;> simp_all

theorem State.readByte_eq_none {s : State} {sp : Space} {a : Addr} :
    s.readByte sp a = none ↔ s.size sp ≤ a.toNat := by
  rw [State.readByte_eq]
  split <;> simp_all

theorem State.writeByte_eq (s : State) (sp : Space) (a : Addr) (v : Byte) :
    s.writeByte sp a v =
      if a.toNat < s.size sp then some (s.setMem sp ((s.mem sp).set a.toNat v)) else none := by
  simp [State.writeByte, State.inBounds_one]

theorem State.writeByte_eq_some {s t : State} {sp : Space} {a : Addr} {v : Byte} :
    s.writeByte sp a v = some t ↔ a.toNat < s.size sp ∧ t = s.setMem sp ((s.mem sp).set a.toNat v) := by
  rw [State.writeByte_eq]
  split <;> simp_all [eq_comm]

theorem State.writeByte_eq_none {s : State} {sp : Space} {a : Addr} {v : Byte} :
    s.writeByte sp a v = none ↔ s.size sp ≤ a.toNat := by
  rw [State.writeByte_eq]
  split <;> simp_all

theorem State.readWord_eq (s : State) (sp : Space) (a : Addr) :
    s.readWord sp a =
      if a.toNat + 1 < s.size sp then some ((s.mem sp).get a.toNat ++ (s.mem sp).get (a.toNat + 1)) else none := by
  simp [State.readWord, State.inBounds_two]

theorem State.writeWord_eq (s : State) (sp : Space) (a : Addr) (v : HalfWord) :
    s.writeWord sp a v =
      if a.toNat + 1 < s.size sp then
        some (s.setMem sp (((s.mem sp).set a.toNat (v.extractLsb' 8 8)).set (a.toNat + 1) (v.extractLsb' 0 8)))
      else none := by
  simp [State.writeWord, State.inBounds_two]

theorem State.writeWord_eq_some {s t : State} {sp : Space} {a : Addr} {v : HalfWord} :
    s.writeWord sp a v = some t ↔ a.toNat + 1 < s.size sp ∧
      t = s.setMem sp (((s.mem sp).set a.toNat (v.extractLsb' 8 8)).set (a.toNat + 1) (v.extractLsb' 0 8)) := by
  rw [State.writeWord_eq]
  split <;> simp_all [eq_comm]

/-- A byte read sees only the memory and the size of its space. -/
theorem State.readByte_congr {s t : State} {sp : Space} (hm : t.mem sp = s.mem sp) (hc : t.cfg = s.cfg) (a : Addr) :
    t.readByte sp a = s.readByte sp a := by
  have hs : t.size sp = s.size sp := by cases sp <;> simp [hc]
  rw [State.readByte_eq, State.readByte_eq, hm, hs]

/-! ### Addresses -/

@[simp] theorem zext32_toNat (v : Byte) : (zext32 v).toNat = v.toNat := by
  have := v.isLt
  simp [zext32, BitVec.toNat_setWidth]
  omega

@[simp] theorem dataAddress_toNat (v : Byte) : (dataAddress v).toNat = v.toNat := zext32_toNat v

@[simp] theorem opcodeAddress_toNat (v : Byte) : (opcodeAddress v).toNat = v.toNat := zext32_toNat v

@[simp] theorem operandAddress_toNat (v : Byte) : (operandAddress v).toNat = v.toNat + 1 := by
  have := v.isLt
  simp [operandAddress, BitVec.toNat_add]
  omega

/-- `zext_32` as the number it is. -/
theorem zext32_eq_ofNat (v : Byte) : zext32 v = BitVec.ofNat 32 v.toNat := by
  apply BitVec.eq_of_toNat_eq
  have := v.isLt
  simp
  omega

theorem operandAddress_eq_ofNat (v : Byte) : operandAddress v = BitVec.ofNat 32 (v.toNat + 1) := by
  apply BitVec.eq_of_toNat_eq
  have := v.isLt
  simp
  omega

/-! ### Fault entry -/

theorem State.raiseOpcodeFetch_eq (s : State) (a : Addr) :
    s.raiseOpcodeFetch a = s.raise .outOfBounds .imem a 0x00#8 none := rfl

theorem State.raiseOperandFetch_eq (s : State) (a : Addr) :
    s.raiseOperandFetch a = s.raise .outOfBounds .imem a s.fl none := rfl

theorem State.raiseInvalidOpcode_eq (s : State) (x : Byte) :
    s.raiseInvalidOpcode x = s.raise .invalidOpcode .imem 0#32 s.fl (some x) := rfl

theorem State.raiseDataAccess_eq (s : State) (op x : Byte) (a : Addr) :
    s.raiseDataAccess op x a = s.raise .outOfBounds .dmem a op (some x) := rfl

theorem State.raiseDivisionByZero_eq (s : State) (op x : Byte) :
    s.raiseDivisionByZero op x = s.raise .divisionByZero .imem 0#32 op (some x) := rfl

/-! ### The ports -/

/-- Everything one poll of the input port can do. -/
theorem State.inRead_cases (s : State) :
    (s.inPort = [] ∧ s.inRead = (s, .waiting)) ∨
    (∃ rest, s.inPort = none :: rest ∧ s.inRead = ({ s with inPort := rest }, .waiting)) ∨
    (∃ v rest, s.inPort = some v :: rest ∧
      s.inRead = ({ s with inPort := rest, events := s.events ++ [.input v] }, .done v)) := by
  unfold State.inRead
  rcases h : s.inPort with _ | ⟨_ | v, rest⟩
  · exact .inl ⟨rfl, rfl⟩
  · exact .inr (.inl ⟨rest, rfl, rfl⟩)
  · exact .inr (.inr ⟨v, rest, rfl, rfl⟩)

/-- Everything one poll of the output port can do. -/
theorem State.outWrite_cases (s : State) (v : Byte) :
    (s.outPort = [] ∧ s.outWrite v = (s, .waiting)) ∨
    (∃ rest, s.outPort = false :: rest ∧ s.outWrite v = ({ s with outPort := rest }, .waiting)) ∨
    (∃ rest, s.outPort = true :: rest ∧
      s.outWrite v = ({ s with outPort := rest, events := s.events ++ [.output v] }, .done ())) := by
  unfold State.outWrite
  rcases h : s.outPort with _ | ⟨_ | _, rest⟩
  · exact .inl ⟨rfl, rfl⟩
  · exact .inr (.inl ⟨rest, rfl, rfl⟩)
  · exact .inr (.inr ⟨rest, rfl, rfl⟩)

end Sys2Proof.Machine
end

