-- ==== Sys2Proof/Laws/Meanings.lean ====
section
/-! SUPPORT. For each meaning, once, everything it can do; then the same for `exec` (`Effect`). -/

namespace Sys2Proof.Machine

/-! ### The meanings -/

theorem State.readData_eq (s : State) (a : Byte) :
    s.readData a = if a.toNat < s.cfg.dmemSize then some (s.dmem.get a.toNat) else none := by
  simp [State.readData, State.readByte_eq]

theorem State.writeData_eq (s : State) (a v : Byte) :
    s.writeData a v = if a.toNat < s.cfg.dmemSize then some { s with dmem := s.dmem.set a.toNat v } else none := by
  simp [State.writeData, State.writeByte_eq, State.setMem]

theorem executeAlu_cases (op : AluOp) (opc a : Byte) (s : State) :
    (s.cfg.dmemSize ≤ a.toNat ∧ executeAlu op opc a s = s.raise .outOfBounds .dmem (zext32 a) opc (some a)) ∨
    (a.toNat < s.cfg.dmemSize ∧
      executeAlu op opc a s = { s with acc := alu op s.acc (s.dmem.get a.toNat), phase := .fetch }) := by
  unfold executeAlu
  rw [State.readData_eq]
  split
  · rename_i h
    split at h
    · cases h
    · exact .inl ⟨by omega, rfl⟩
  · rename_i m h
    split at h
    · cases h
      exact .inr ⟨by assumption, rfl⟩
    · cases h

theorem execDiv_cases (a : Byte) (s : State) :
    (s.cfg.dmemSize ≤ a.toNat ∧ execDiv a s = .next (s.raise .outOfBounds .dmem (zext32 a) 0x04#8 (some a))) ∨
    (a.toNat < s.cfg.dmemSize ∧ s.dmem.get a.toNat = 0x00#8 ∧
      execDiv a s = .next (s.raise .divisionByZero .imem 0#32 0x04#8 (some a))) ∨
    (a.toNat < s.cfg.dmemSize ∧ s.dmem.get a.toNat ≠ 0x00#8 ∧
      execDiv a s = .next { s with acc := alu .div s.acc (s.dmem.get a.toNat), phase := .fetch }) := by
  unfold execDiv
  rw [State.readData_eq]
  by_cases h : a.toNat < s.cfg.dmemSize
  · by_cases hz : s.dmem.get a.toNat = 0x00#8
    · refine .inr (.inl ⟨h, hz, ?_⟩)
      simp only [h, if_true, hz]
      rfl
    · refine .inr (.inr ⟨h, hz, ?_⟩)
      simp only [h, if_true, hz, if_false]
      rfl
  · refine .inl ⟨by omega, ?_⟩
    simp only [h, if_false]
    rfl

theorem execSta_cases (a : Byte) (s : State) :
    (s.cfg.dmemSize ≤ a.toNat ∧ execSta a s = .next (s.raise .outOfBounds .dmem (zext32 a) 0x05#8 (some a))) ∨
    (a.toNat < s.cfg.dmemSize ∧ execSta a s = .next { s with dmem := s.dmem.set a.toNat s.acc, phase := .fetch }) := by
  unfold execSta
  rw [State.writeData_eq]
  by_cases h : a.toNat < s.cfg.dmemSize
  · refine .inr ⟨h, ?_⟩
    simp only [h, if_true]
    rfl
  · refine .inl ⟨by omega, ?_⟩
    simp only [h, if_false]
    rfl

theorem execLda_cases (a : Byte) (s : State) :
    (s.cfg.dmemSize ≤ a.toNat ∧ execLda a s = .next (s.raise .outOfBounds .dmem (zext32 a) 0x06#8 (some a))) ∨
    (a.toNat < s.cfg.dmemSize ∧ execLda a s = .next { s with acc := s.dmem.get a.toNat, phase := .fetch }) := by
  unfold execLda
  rw [State.readData_eq]
  by_cases h : a.toNat < s.cfg.dmemSize
  · refine .inr ⟨h, ?_⟩
    simp only [h, if_true]
    rfl
  · refine .inl ⟨by omega, ?_⟩
    simp only [h, if_false]
    rfl

theorem resolve_eq (c : JumpCond) (a : Byte) (s : State) :
    resolve c a s =
      { s with pc := if taken c s.cfg.accCmpSigned s.acc = true then a else s.pc, phase := .fetch } := by
  unfold resolve
  split <;> rfl

theorem execInp_cases (x : Byte) (s : State) :
    (s.inPort = [] ∧ execInp x s = .next s) ∨
    (∃ rest, s.inPort = none :: rest ∧ execInp x s = .next { s with inPort := rest }) ∨
    (∃ v rest, s.inPort = some v :: rest ∧
      execInp x s = .next { s with acc := v, inPort := rest, events := s.events ++ [.input v], phase := .fetch }) := by
  unfold execInp
  rcases s.inRead_cases with ⟨h, e⟩ | ⟨rest, h, e⟩ | ⟨v, rest, h, e⟩
  · exact .inl ⟨h, by rw [e]⟩
  · exact .inr (.inl ⟨rest, h, by rw [e]⟩)
  · exact .inr (.inr ⟨v, rest, h, by rw [e]; rfl⟩)

theorem execOut_cases (x : Byte) (s : State) :
    (s.outPort = [] ∧ execOut x s = .next s) ∨
    (∃ rest, s.outPort = false :: rest ∧ execOut x s = .next { s with outPort := rest }) ∨
    (∃ rest, s.outPort = true :: rest ∧
      execOut x s = .next { s with outPort := rest, events := s.events ++ [.output s.acc], phase := .fetch }) := by
  unfold execOut
  rcases s.outWrite_cases s.acc with ⟨h, e⟩ | ⟨rest, h, e⟩ | ⟨rest, h, e⟩
  · exact .inl ⟨h, by rw [e]⟩
  · exact .inr (.inl ⟨rest, h, by rw [e]⟩)
  · exact .inr (.inr ⟨rest, h, by rw [e]; rfl⟩)

/-! ### exec -/

/-- Everything an instruction can do to a state, with the guard of each case. -/
inductive Effect (i : Instr) (s : State) : State → Prop where
  /-- a data access out of bounds -/
  | dataFault (hi : i.opcode.byte.toNat ≤ 0x06) (h : s.cfg.dmemSize ≤ i.operand.toNat) :
      Effect i s (s.raise .outOfBounds .dmem (zext32 i.operand) i.opcode.byte (some i.operand))
  /-- a zero divisor -/
  | zeroDivisor (hi : i = .div i.operand) (h : i.operand.toNat < s.cfg.dmemSize)
      (hz : s.dmem.get i.operand.toNat = 0x00#8) :
      Effect i s (s.raise .divisionByZero .imem 0#32 i.opcode.byte (some i.operand))
  /-- ADD, SUB, MUL, DIV, LDA in bounds -/
  | writeAcc (v : Byte) (hi : i.opcode.byte.toNat ≤ 0x06) (hs : i ≠ .sta i.operand)
      (h : i.operand.toNat < s.cfg.dmemSize)
      (hd : i = .div i.operand → s.dmem.get i.operand.toNat ≠ 0x00#8) :
      Effect i s { s with acc := v, phase := .fetch }
  /-- STA in bounds -/
  | store (hi : i = .sta i.operand) (h : i.operand.toNat < s.cfg.dmemSize) :
      Effect i s { s with dmem := s.dmem.set i.operand.toNat s.acc, phase := .fetch }
  /-- a jump, taken or not -/
  | jump (p : Byte) (hi : 0x07 ≤ i.opcode.byte.toNat ∧ i.opcode.byte.toNat ≤ 0x0D) (hp : p = i.operand ∨ p = s.pc) :
      Effect i s { s with pc := p, phase := .fetch }
  | halt (hi : i = .hlt i.operand) : Effect i s s.halt
  | inputNever (hi : i = .inp i.operand) (h : s.inPort = []) : Effect i s s
  | inputWait (rest : List (Option Byte)) (hi : i = .inp i.operand) (h : s.inPort = none :: rest) :
      Effect i s { s with inPort := rest }
  | input (v : Byte) (rest : List (Option Byte)) (hi : i = .inp i.operand) (h : s.inPort = some v :: rest) :
      Effect i s { s with acc := v, inPort := rest, events := s.events ++ [.input v], phase := .fetch }
  | outputNever (hi : i = .out i.operand) (h : s.outPort = []) : Effect i s s
  | outputWait (rest : List Bool) (hi : i = .out i.operand) (h : s.outPort = false :: rest) :
      Effect i s { s with outPort := rest }
  | output (rest : List Bool) (hi : i = .out i.operand) (h : s.outPort = true :: rest) :
      Effect i s { s with outPort := rest, events := s.events ++ [.output s.acc], phase := .fetch }

theorem Effect.jump_of_resolve {i : Instr} {s : State} (c : JumpCond)
    (hi : 0x07 ≤ i.opcode.byte.toNat ∧ i.opcode.byte.toNat ≤ 0x0D) : Effect i s (resolve c i.operand s) := by
  rw [resolve_eq]
  refine .jump _ hi ?_
  split
  · exact .inl rfl
  · exact .inr rfl

theorem Effect.of_executeAlu {i : Instr} {s : State} (op : AluOp) (hi : i.opcode.byte.toNat ≤ 0x06)
    (hs : i ≠ .sta i.operand) (hd : i ≠ .div i.operand) :
    Effect i s (executeAlu op i.opcode.byte i.operand s) := by
  rcases executeAlu_cases op i.opcode.byte i.operand s with ⟨h, e⟩ | ⟨h, e⟩
  · rw [e]
    exact .dataFault hi h
  · rw [e]
    exact .writeAcc _ hi hs h (fun h => absurd h hd)

/-- The inversion of `exec`: a next state comes from one of the cases of `Effect`. -/
theorem exec_effect {i : Instr} {s t : State} (h : exec i s = .next t) : Effect i s t := by
  cases i with
  | add a =>
    cases h
    exact Effect.of_executeAlu (i := .add a) .add (by simp [Instr.opcode, Opcode.byte]) (by simp) (by simp)
  | sub a =>
    cases h
    exact Effect.of_executeAlu (i := .sub a) .sub (by simp [Instr.opcode, Opcode.byte]) (by simp) (by simp)
  | mul a =>
    cases h
    exact Effect.of_executeAlu (i := .mul a) .mul (by simp [Instr.opcode, Opcode.byte]) (by simp) (by simp)
  | div a =>
    rcases execDiv_cases a s with ⟨hb, e⟩ | ⟨hb, hz, e⟩ | ⟨hb, hz, e⟩ <;>
      cases (show execDiv a s = .next t from h).symm.trans e
    · exact .dataFault (i := .div a) (by simp [Instr.opcode, Opcode.byte]) hb
    · exact .zeroDivisor (i := .div a) rfl hb hz
    · exact .writeAcc (i := .div a) _ (by simp [Instr.opcode, Opcode.byte]) (by simp) hb (fun _ => hz)
  | sta a =>
    rcases execSta_cases a s with ⟨hb, e⟩ | ⟨hb, e⟩ <;> cases (show execSta a s = .next t from h).symm.trans e
    · exact .dataFault (i := .sta a) (by simp [Instr.opcode, Opcode.byte]) hb
    · exact .store (i := .sta a) rfl hb
  | lda a =>
    rcases execLda_cases a s with ⟨hb, e⟩ | ⟨hb, e⟩ <;> cases (show execLda a s = .next t from h).symm.trans e
    · exact .dataFault (i := .lda a) (by simp [Instr.opcode, Opcode.byte]) hb
    · exact .writeAcc (i := .lda a) _ (by simp [Instr.opcode, Opcode.byte]) (by simp) hb (by simp)
  | jmp a =>
    cases h
    exact Effect.jump_of_resolve (i := .jmp a) _ (by simp [Instr.opcode, Opcode.byte])
  | jeq a =>
    cases h
    exact Effect.jump_of_resolve (i := .jeq a) _ (by simp [Instr.opcode, Opcode.byte])
  | jne a =>
    cases h
    exact Effect.jump_of_resolve (i := .jne a) _ (by simp [Instr.opcode, Opcode.byte])
  | jgt a =>
    cases h
    exact Effect.jump_of_resolve (i := .jgt a) _ (by simp [Instr.opcode, Opcode.byte])
  | jlt a =>
    cases h
    exact Effect.jump_of_resolve (i := .jlt a) _ (by simp [Instr.opcode, Opcode.byte])
  | jz a =>
    cases h
    exact Effect.jump_of_resolve (i := .jz a) _ (by simp [Instr.opcode, Opcode.byte])
  | jnz a =>
    cases h
    exact Effect.jump_of_resolve (i := .jnz a) _ (by simp [Instr.opcode, Opcode.byte])
  | hlt a =>
    cases h
    exact .halt rfl
  | inp a =>
    rcases execInp_cases a s with ⟨hp, e⟩ | ⟨rest, hp, e⟩ | ⟨v, rest, hp, e⟩ <;>
      cases (show execInp a s = .next t from h).symm.trans e
    · exact .inputNever (i := .inp a) rfl hp
    · exact .inputWait (i := .inp a) rest rfl hp
    · exact .input (i := .inp a) v rest rfl hp
  | out a =>
    rcases execOut_cases a s with ⟨hp, e⟩ | ⟨rest, hp, e⟩ | ⟨rest, hp, e⟩ <;>
      cases (show execOut a s = .next t from h).symm.trans e
    · exact .outputNever (i := .out a) rfl hp
    · exact .outputWait (i := .out a) rest rfl hp
    · exact .output (i := .out a) rest rfl hp
  | dat a => cases h

/-- No instruction ends in a fault of the model. -/
theorem exec_ne_fault (i : Instr) (s : State) (r : Fault) : exec i s ≠ .fault r := by
  cases i with
  | div a => rcases execDiv_cases a s with ⟨_, e⟩ | ⟨_, _, e⟩ | ⟨_, _, e⟩ <;> simp [exec, e]
  | sta a => rcases execSta_cases a s with ⟨_, e⟩ | ⟨_, e⟩ <;> simp [exec, e]
  | lda a => rcases execLda_cases a s with ⟨_, e⟩ | ⟨_, e⟩ <;> simp [exec, e]
  | inp a => rcases execInp_cases a s with ⟨_, e⟩ | ⟨_, _, e⟩ | ⟨_, _, _, e⟩ <;> simp [exec, e]
  | out a => rcases execOut_cases a s with ⟨_, e⟩ | ⟨_, _, e⟩ | ⟨_, _, e⟩ <;> simp [exec, e]
  | add a | sub a | mul a => simp [exec, execAdd, execSub, execMul]
  | jmp a | jeq a | jne a | jgt a | jlt a | jz a | jnz a =>
    simp [exec, execJmp, execJeq, execJne, execJgt, execJlt, execJz, execJnz]
  | hlt a | dat a => simp [exec, execHlt, execDat]

/-- Only DAT is refused. -/
theorem exec_refused {i : Instr} {s : State} {r : Refusal} (h : exec i s = .refused r) :
    i = .dat i.operand ∧ r = .datExecute := by
  cases i with
  | div a => rcases execDiv_cases a s with ⟨_, e⟩ | ⟨_, _, e⟩ | ⟨_, _, e⟩ <;> simp [exec, e] at h
  | sta a => rcases execSta_cases a s with ⟨_, e⟩ | ⟨_, e⟩ <;> simp [exec, e] at h
  | lda a => rcases execLda_cases a s with ⟨_, e⟩ | ⟨_, e⟩ <;> simp [exec, e] at h
  | inp a => rcases execInp_cases a s with ⟨_, e⟩ | ⟨_, _, e⟩ | ⟨_, _, _, e⟩ <;> simp [exec, e] at h
  | out a => rcases execOut_cases a s with ⟨_, e⟩ | ⟨_, _, e⟩ | ⟨_, _, e⟩ <;> simp [exec, e] at h
  | add a | sub a | mul a => simp [exec, execAdd, execSub, execMul] at h
  | jmp a | jeq a | jne a | jgt a | jlt a | jz a | jnz a =>
    simp [exec, execJmp, execJeq, execJne, execJgt, execJlt, execJz, execJnz] at h
  | hlt a => simp [exec, execHlt] at h
  | dat a =>
    cases h
    exact ⟨rfl, rfl⟩

end Sys2Proof.Machine
end

