-- ==== Sys2Proof/Laws/Cycle.lean ====
section
/-! SUPPORT. For each phase of the cycle, for the host's operations and for the step, once, everything it can do. -/

namespace Sys2Proof.Machine

/-! ### FETCH, DECODE, EXECUTE -/

theorem fetchPhase_cases (s : State) :
    (s.cfg.imemSize ≤ s.pc.toNat ∧
      fetchPhase s = ({ s with iaddr := s.pc } : State).raise .outOfBounds .imem (zext32 s.pc) 0x00#8 none) ∨
    (s.pc.toNat < s.cfg.imemSize ∧
      fetchPhase s =
        { s with iaddr := s.pc, fl := s.imem.get s.pc.toNat, pc := nextPc s.pc, phase := .decode }) := by
  unfold fetchPhase
  simp only [State.readByte_eq]
  split
  · rename_i h
    split at h
    · cases h
    · rename_i hb
      exact .inl ⟨by simpa using hb, rfl⟩
  · rename_i b h
    split at h
    · rename_i hb
      cases h
      refine .inr ⟨by simpa using hb, ?_⟩
      simp [State.setPc, State.setFl, State.setIaddr]
    · cases h

theorem decodePhase_cases (s : State) :
    (s.cfg.imemSize ≤ s.iaddr.toNat + 1 ∧
      decodePhase s = s.raise .outOfBounds .imem (operandAddress s.iaddr) s.fl none) ∨
    (s.iaddr.toNat + 1 < s.cfg.imemSize ∧ opcodeByteValid s.fl = false ∧
      decodePhase s = ({ s with ir := InstrReg.empty } : State).raise .invalidOpcode .imem 0#32 s.fl
        (some (s.imem.get (s.iaddr.toNat + 1)))) ∨
    (s.iaddr.toNat + 1 < s.cfg.imemSize ∧ opcodeByteValid s.fl = true ∧
      decodePhase s = { s with
        ir := { valid := true, op := s.fl, operand := s.imem.get (s.iaddr.toNat + 1) }, phase := .execute }) := by
  unfold decodePhase
  simp only [State.readByte_eq, operandAddress_toNat, State.size_imem, State.mem_imem]
  by_cases hb : s.iaddr.toNat + 1 < s.cfg.imemSize
  · simp only [hb, if_true]
    rcases decodeOpcode_cases s.fl with ⟨o, h, -, hv⟩ | ⟨h, hv⟩
    · refine .inr (.inr ⟨trivial, hv, ?_⟩)
      rw [h]
      rfl
    · refine .inr (.inl ⟨trivial, hv, ?_⟩)
      rw [h]
      rfl
  · simp only [hb, if_false]
    exact .inl ⟨by omega, rfl⟩

/-- The instruction a valid IR holds. -/
theorem InstrReg.instruction_of_byte (o : Opcode) (x : Byte) :
    ({ valid := true, op := o.byte, operand := x } : InstrReg).instruction = some (o.withOperand x) := by
  simp [InstrReg.instruction, decodeBytes_byte]

theorem InstrReg.instruction_eq_some {r : InstrReg} {i : Instr} (h : r.instruction = some i) :
    r.valid = true ∧ r.op = i.opcode.byte ∧ r.operand = i.operand := by
  unfold InstrReg.instruction at h
  split at h
  · rename_i hv
    rcases decodeBytes_cases r.op r.operand with ⟨o, e, hb, -⟩ | ⟨e, -⟩
    · rw [e] at h
      cases h
      simp [hv, hb]
    · rw [e] at h
      cases h
  · cases h

theorem InstrReg.instruction_of_valid {r : InstrReg} (hv : r.valid = true) (ho : opcodeByteValid r.op = true) :
    ∃ i, r.instruction = some i := by
  rcases decodeBytes_cases r.op r.operand with ⟨o, e, -, -⟩ | ⟨-, h⟩
  · exact ⟨o.withOperand r.operand, by simp [InstrReg.instruction, hv, e]⟩
  · simp [h] at ho

theorem executePhase_of_instruction {s : State} {i : Instr} (h : s.ir.instruction = some i) :
    executePhase s = exec i s := by
  simp [executePhase, h]

theorem executePhase_next {s t : State} (h : executePhase s = .next t) :
    ∃ i, s.ir.instruction = some i ∧ exec i s = .next t := by
  unfold executePhase at h
  split at h
  · cases h
  · exact ⟨_, by assumption, h⟩

/-! ### The step -/

theorem step_of_stopped {s : State} (h : s.phase.isRunning = false) : step s = .next s.hostMove := by
  unfold step phaseStep
  split <;> simp_all [Phase.isRunning]

theorem step_of_fetch {s : State} (h : s.phase = .fetch) : step s = .next (fetchPhase s) := by
  simp [step, phaseStep, h]

theorem step_of_decode {s : State} (h : s.phase = .decode) : step s = .next (decodePhase s) := by
  simp [step, phaseStep, h]

theorem step_of_execute {s : State} (h : s.phase = .execute) : step s = executePhase s := by
  simp [step, phaseStep, h]

/-- Everything a step with a next state does in a running phase. -/
theorem step_running_cases {s t : State} (hr : s.phase.isRunning = true) (h : step s = .next t) :
    (s.phase = .fetch ∧ t = fetchPhase s) ∨ (s.phase = .decode ∧ t = decodePhase s) ∨
    (s.phase = .execute ∧ ∃ i, s.ir.instruction = some i ∧ exec i s = .next t) := by
  cases hp : s.phase <;> simp [hp, Phase.isRunning] at hr
  · rw [step_of_fetch hp] at h
    cases h
    exact .inl ⟨rfl, rfl⟩
  · rw [step_of_decode hp] at h
    cases h
    exact .inr (.inl ⟨rfl, rfl⟩)
  · rw [step_of_execute hp] at h
    exact .inr (.inr ⟨rfl, executePhase_next h⟩)

/-! ### The cycle -/

theorem cycle_of_stopped {s : State} (h : s.phase.isRunning = false) : cycle s = step s := by
  unfold cycle step phaseStep
  split <;> simp_all [Phase.isRunning]

theorem cycle_of_fetch {s : State} (h : s.phase = .fetch) : cycle s = thenDecode (fetchPhase s) := by
  simp [cycle, h]

theorem cycle_of_decode {s : State} (h : s.phase = .decode) : cycle s = thenExecute (decodePhase s) := by
  simp [cycle, h]

theorem cycle_of_execute {s : State} (h : s.phase = .execute) : cycle s = step s := by
  rw [step_of_execute h]
  simp [cycle, h]

/-- The state FETCH leaves when it succeeds. -/
def State.fetched (s : State) : State :=
  { s with iaddr := s.pc, fl := s.imem.get s.pc.toNat, pc := nextPc s.pc, phase := .decode }

/-- The state DECODE leaves when it succeeds. -/
def State.decoded (s : State) : State :=
  { s with ir := { valid := true, op := s.fl, operand := s.imem.get (s.iaddr.toNat + 1) }, phase := .execute }

/-- Everything a cycle can do from DECODE on. -/
theorem cycle_decode_cases {s : State} (h : s.phase = .decode) :
    (s.cfg.imemSize ≤ s.iaddr.toNat + 1 ∧
      cycle s = .next (s.raise .outOfBounds .imem (operandAddress s.iaddr) s.fl none)) ∨
    (s.iaddr.toNat + 1 < s.cfg.imemSize ∧ opcodeByteValid s.fl = false ∧
      cycle s = .next (({ s with ir := InstrReg.empty } : State).raise .invalidOpcode .imem 0#32 s.fl
        (some (s.imem.get (s.iaddr.toNat + 1))))) ∨
    (s.iaddr.toNat + 1 < s.cfg.imemSize ∧ opcodeByteValid s.fl = true ∧
      ∃ i : Instr, s.decoded.ir.instruction = some i ∧ i.opcode.byte = s.fl ∧
        i.operand = s.imem.get (s.iaddr.toNat + 1) ∧ cycle s = exec i s.decoded) := by
  rw [cycle_of_decode h]
  rcases decodePhase_cases s with ⟨hb, e⟩ | ⟨hb, hv, e⟩ | ⟨hb, hv, e⟩
  · exact .inl ⟨hb, by rw [e]; simp [thenExecute]⟩
  · exact .inr (.inl ⟨hb, hv, by rw [e]; simp [thenExecute]⟩)
  · refine .inr (.inr ⟨hb, hv, ?_⟩)
    have hd : decodePhase s = s.decoded := e
    obtain ⟨i, hi⟩ := InstrReg.instruction_of_valid (r := s.decoded.ir) rfl hv
    obtain ⟨-, ho, hx⟩ := InstrReg.instruction_eq_some hi
    refine ⟨i, hi, ho.symm, hx.symm, ?_⟩
    rw [hd, thenExecute, if_pos (show s.decoded.phase = .execute from rfl)]
    exact executePhase_of_instruction hi

/-- What a cycle does before its DECODE. -/
theorem cycle_fetch_cases {s : State} (h : s.phase = .fetch) :
    (s.cfg.imemSize ≤ s.pc.toNat ∧
      cycle s = .next (({ s with iaddr := s.pc } : State).raise .outOfBounds .imem (zext32 s.pc) 0x00#8 none)) ∨
    (s.pc.toNat < s.cfg.imemSize ∧ cycle s = cycle s.fetched) := by
  rw [cycle_of_fetch h]
  rcases fetchPhase_cases s with ⟨hb, e⟩ | ⟨hb, e⟩
  · exact .inl ⟨hb, by rw [e]; simp [thenDecode]⟩
  · refine .inr ⟨hb, ?_⟩
    have hf : fetchPhase s = s.fetched := e
    rw [hf, cycle_of_decode (show s.fetched.phase = .decode from rfl), thenDecode,
      if_pos (show s.fetched.phase = .decode from rfl)]

/-! ### The host -/

theorem State.hostMove_nil {s : State} (h : s.commands = []) : s.hostMove = s := by
  simp [State.hostMove, h]

theorem State.hostMove_cons {s : State} {c : HostCommand} {rest : List HostCommand} (h : s.commands = c :: rest) :
    s.hostMove = ({ s with commands := rest } : State).hostCommand c := by
  simp [State.hostMove, h]

/-- What no host operation changes. -/
theorem State.hostCommand_frame (s : State) (c : HostCommand) :
    (s.hostCommand c).cfg = s.cfg ∧ (s.hostCommand c).fl = s.fl ∧ (s.hostCommand c).ir = s.ir ∧
    (s.hostCommand c).iaddr = s.iaddr ∧ (s.hostCommand c).inPort = s.inPort ∧
    (s.hostCommand c).outPort = s.outPort ∧ (s.hostCommand c).events = s.events ∧
    (s.hostCommand c).commands = s.commands := by
  cases c <;> simp only [State.hostCommand]
  case loadProgram image => unfold State.loadProgram; split <;> simp
  case loadData image => unfold State.loadData; split <;> simp
  case start => unfold State.start; split <;> simp
  case write sp a v =>
    rw [State.writeByte_eq]
    split <;> simp [State.hostWrite]
  case writeWord sp a v =>
    rw [State.writeWord_eq]
    split <;> simp [State.hostWrite]
  all_goals simp

end Sys2Proof.Machine
end

