-- ==== Sys2Proof/Laws/PerInstr.lean ====
section
/-! SUPPORT. Statements for all instructions, one lemma per constructor (LAWS.json). -/

namespace Sys2Proof.Laws

/-- R82, R85: an instruction is encoded in two bytes, of which the first is a valid opcode byte. -/
def OpcodeByteRange.Statement (i : Instr) : Prop :=
  (encode i).length = 2 ∧ opcodeByteValid i.opcode.byte = true

theorem OpcodeByteRange.add (a : Byte) : OpcodeByteRange.Statement (.add a) := ⟨rfl, rfl⟩

theorem OpcodeByteRange.sub (a : Byte) : OpcodeByteRange.Statement (.sub a) := ⟨rfl, rfl⟩

theorem OpcodeByteRange.mul (a : Byte) : OpcodeByteRange.Statement (.mul a) := ⟨rfl, rfl⟩

theorem OpcodeByteRange.div (a : Byte) : OpcodeByteRange.Statement (.div a) := ⟨rfl, rfl⟩

theorem OpcodeByteRange.sta (a : Byte) : OpcodeByteRange.Statement (.sta a) := ⟨rfl, rfl⟩

theorem OpcodeByteRange.lda (a : Byte) : OpcodeByteRange.Statement (.lda a) := ⟨rfl, rfl⟩

theorem OpcodeByteRange.jmp (a : Byte) : OpcodeByteRange.Statement (.jmp a) := ⟨rfl, rfl⟩

theorem OpcodeByteRange.jeq (a : Byte) : OpcodeByteRange.Statement (.jeq a) := ⟨rfl, rfl⟩

theorem OpcodeByteRange.jne (a : Byte) : OpcodeByteRange.Statement (.jne a) := ⟨rfl, rfl⟩

theorem OpcodeByteRange.jgt (a : Byte) : OpcodeByteRange.Statement (.jgt a) := ⟨rfl, rfl⟩

theorem OpcodeByteRange.jlt (a : Byte) : OpcodeByteRange.Statement (.jlt a) := ⟨rfl, rfl⟩

theorem OpcodeByteRange.jz (a : Byte) : OpcodeByteRange.Statement (.jz a) := ⟨rfl, rfl⟩

theorem OpcodeByteRange.jnz (a : Byte) : OpcodeByteRange.Statement (.jnz a) := ⟨rfl, rfl⟩

theorem OpcodeByteRange.hlt (a : Byte) : OpcodeByteRange.Statement (.hlt a) := ⟨rfl, rfl⟩

theorem OpcodeByteRange.inp (a : Byte) : OpcodeByteRange.Statement (.inp a) := ⟨rfl, rfl⟩

theorem OpcodeByteRange.out (a : Byte) : OpcodeByteRange.Statement (.out a) := ⟨rfl, rfl⟩

theorem OpcodeByteRange.dat (a : Byte) : OpcodeByteRange.Statement (.dat a) := ⟨rfl, rfl⟩

end Sys2Proof.Laws
end

