-- ==== Sys2Proof/Laws/Run.lean ====
section
/-! SUPPORT. The laws of the ends of a run (spec/70_reset_and_hazards.md R268): everything `runEnd` can answer; a run
meets one end at most, and nothing after it counts; more answers of the host than a run needs change nothing; and a run
that has an end does not run for ever. -/

namespace Sys2Proof.Machine

/-! ### The end at a state -/

theorem State.runEnd_of_execute {s : State} (h : s.phase = .execute) :
    s.runEnd = if s.stuck then some .stuck else
      match step s with
      | .next _ => none
      | .refused r => some (.refused r)
      | .fault r => some (.stopped r) := by
  unfold State.runEnd
  cases hp : s.phase <;> first | rfl | (rw [hp] at h; cases h)

/-- Everything `runEnd` can answer. -/
theorem State.runEnd_cases (s : State) :
    (s.phase = .halted ∧ s.runEnd = some .halted) ∨
    (s.phase = .faulted ∧ s.runEnd = some (.faulted s.fault)) ∨
    (s.phase = .execute ∧ s.stuck = true ∧ s.runEnd = some .stuck) ∨
    (s.phase = .execute ∧ s.stuck = false ∧ ∃ r, step s = .refused r ∧ s.runEnd = some (.refused r)) ∨
    (s.phase = .execute ∧ s.stuck = false ∧ ∃ r, step s = .fault r ∧ s.runEnd = some (.stopped r)) ∨
    (s.stuck = false ∧ ∃ t, step s = .next t ∧ s.runEnd = none) := by
  have other : s.phase ≠ .execute → s.stuck = false := by
    intro h
    simp [State.stuck, State.inReq, State.outValid, h]
  cases hp : s.phase
  case halted => exact .inl ⟨rfl, by simp [State.runEnd, hp]⟩
  case faulted => exact .inr (.inl ⟨rfl, by simp [State.runEnd, hp]⟩)
  case loaded =>
    exact .inr (.inr (.inr (.inr (.inr
      ⟨other (by simp [hp]), _, step_of_stopped (by rw [hp]; rfl), by simp [State.runEnd, hp]⟩))))
  case fetch =>
    exact .inr (.inr (.inr (.inr (.inr ⟨other (by simp [hp]), _, step_of_fetch hp, by simp [State.runEnd, hp]⟩))))
  case decode =>
    exact .inr (.inr (.inr (.inr (.inr ⟨other (by simp [hp]), _, step_of_decode hp, by simp [State.runEnd, hp]⟩))))
  case execute =>
    have e := State.runEnd_of_execute hp
    cases hk : s.stuck
    case true => exact .inr (.inr (.inl ⟨rfl, rfl, by rw [e, hk]; rfl⟩))
    case false =>
      simp only [hk, Bool.false_eq_true, if_false] at e
      cases hs : step s with
      | refused r => exact .inr (.inr (.inr (.inl ⟨rfl, rfl, r, rfl, by rw [e, hs]⟩)))
      | fault r => exact .inr (.inr (.inr (.inr (.inl ⟨rfl, rfl, r, rfl, by rw [e, hs]⟩))))
      | next t => exact .inr (.inr (.inr (.inr (.inr ⟨rfl, t, rfl, by rw [e, hs]⟩))))

/-- A run that goes on has a next state, and waits at no port for good. -/
theorem State.step_of_runEnd_none {s : State} (h : s.runEnd = none) : s.stuck = false ∧ ∃ t, step s = .next t := by
  rcases s.runEnd_cases with ⟨-, e⟩ | ⟨-, e⟩ | ⟨-, -, e⟩ | ⟨-, -, r, -, e⟩ | ⟨-, -, r, -, e⟩ | ⟨hk, t, ht, -⟩
  case inr.inr.inr.inr.inr => exact ⟨hk, t, ht⟩
  all_goals rw [h] at e; cases e

/-! ### The end of a run -/

@[simp] theorem State.endWithin_zero (s : State) : State.endWithin 0 s = s.runEnd := rfl

theorem State.endWithin_of_runEnd {s : State} {e : RunEnd} (h : s.runEnd = some e) (n : Nat) :
    State.endWithin n s = some e := by
  cases n <;> simp [State.endWithin, h]

theorem State.endWithin_succ {s t : State} (h : s.runEnd = none) (ht : step s = .next t) (n : Nat) :
    State.endWithin (n + 1) s = State.endWithin n t := by
  simp [State.endWithin, h, ht]

/-- An end once met stays the run's end, however many steps are looked at. -/
theorem State.endWithin_mono {e : RunEnd} (m : Nat) :
    ∀ {n : Nat} {s : State}, State.endWithin n s = some e → State.endWithin (n + m) s = some e := by
  intro n
  induction n with
  | zero => exact fun h => State.endWithin_of_runEnd h _
  | succ n ih =>
    intro s h
    cases he : s.runEnd with
    | some e' =>
      rw [State.endWithin_of_runEnd he] at h ⊢
      exact h
    | none =>
      obtain ⟨-, t, ht⟩ := State.step_of_runEnd_none he
      rw [State.endWithin_succ he ht] at h
      rw [show n + 1 + m = n + m + 1 by omega, State.endWithin_succ he ht]
      exact ih h

/-- A run has one end at most: one that faults, is refused or is stuck does not halt, whatever the host does then. -/
theorem State.endWithin_unique {s : State} {n m : Nat} {e e' : RunEnd} (h : State.endWithin n s = some e)
    (h' : State.endWithin m s = some e') : e = e' := by
  have a := State.endWithin_mono m h
  have b := State.endWithin_mono n h'
  rw [Nat.add_comm m n, a] at b
  exact Option.some.inj b

/-- A run that ends does so in a state that its steps reach and that is that end. -/
theorem State.endWithin_reaches {e : RunEnd} :
    ∀ {n : Nat} {s : State}, State.endWithin n s = some e → ∃ k t, k ≤ n ∧ Reaches s k t ∧ t.runEnd = some e := by
  intro n
  induction n with
  | zero => exact fun {s} h => ⟨0, s, le_rfl, rfl, h⟩
  | succ n ih =>
    intro s h
    cases he : s.runEnd with
    | some e' =>
      rw [State.endWithin_of_runEnd he] at h
      exact ⟨0, s, Nat.zero_le _, rfl, by rw [he, h]⟩
    | none =>
      obtain ⟨-, t, ht⟩ := State.step_of_runEnd_none he
      rw [State.endWithin_succ he ht] at h
      obtain ⟨k, u, hk, hr, hu⟩ := ih h
      refine ⟨k + 1, u, Nat.succ_le_succ hk, ?_, hu⟩
      have hc : core.step s = .next t := ht
      simpa only [Reaches, Host.Core.run, hc] using hr

/-! ### A host with more answers -/

/-- The state with more of the host's coming polls at both ports. -/
def State.withMore (s : State) (i : List (Option Byte)) (o : List Bool) : State :=
  { s with inPort := s.inPort ++ i, outPort := s.outPort ++ o }

theorem State.hostCommand_withMore (s : State) (c : HostCommand) (i : List (Option Byte)) (o : List Bool) :
    (s.withMore i o).hostCommand c = (s.hostCommand c).withMore i o := by
  cases c <;> simp only [State.hostCommand]
  case loadProgram image =>
    unfold State.loadProgram
    rw [show (s.withMore i o).cfg = s.cfg from rfl]
    split <;> rfl
  case loadData image =>
    unfold State.loadData
    rw [show (s.withMore i o).cfg = s.cfg from rfl]
    split <;> rfl
  case start =>
    unfold State.start
    rw [show (s.withMore i o).phase = s.phase from rfl]
    split <;> rfl
  case read sp a => cases sp <;> rfl
  case readWord sp a => cases sp <;> rfl
  case write sp a v =>
    have hs : (s.withMore i o).size sp = s.size sp := by cases sp <;> rfl
    have hm : (s.withMore i o).mem sp = s.mem sp := by cases sp <;> rfl
    rw [State.writeByte_eq, State.writeByte_eq, hs, hm]
    split
    · cases sp <;> rfl
    · rfl
  case writeWord sp a v =>
    have hs : (s.withMore i o).size sp = s.size sp := by cases sp <;> rfl
    have hm : (s.withMore i o).mem sp = s.mem sp := by cases sp <;> rfl
    rw [State.writeWord_eq, State.writeWord_eq, hs, hm]
    split
    · cases sp <;> rfl
    · rfl
  case getRegister r => cases r <;> rfl
  all_goals rfl

theorem State.hostMove_withMore (s : State) (i : List (Option Byte)) (o : List Bool) :
    (s.withMore i o).hostMove = s.hostMove.withMore i o := by
  cases hc : s.commands with
  | nil => rw [State.hostMove_nil hc, State.hostMove_nil (s := s.withMore i o) hc]
  | cons c rest =>
    rw [State.hostMove_cons hc, State.hostMove_cons (s := s.withMore i o) hc]
    exact State.hostCommand_withMore { s with commands := rest } c i o

theorem fetchPhase_withMore (s : State) (i : List (Option Byte)) (o : List Bool) :
    fetchPhase (s.withMore i o) = (fetchPhase s).withMore i o := by
  rcases fetchPhase_cases s with ⟨h, e⟩ | ⟨h, e⟩ <;>
    rcases fetchPhase_cases (s.withMore i o) with ⟨h', e'⟩ | ⟨h', e'⟩ <;> rw [e, e']
  · rfl
  · exact absurd h (Nat.not_le_of_lt h')
  · exact absurd h' (Nat.not_le_of_lt h)
  · rfl

theorem decodePhase_withMore (s : State) (i : List (Option Byte)) (o : List Bool) :
    decodePhase (s.withMore i o) = (decodePhase s).withMore i o := by
  have hr : (s.withMore i o).readByte .imem (operandAddress (s.withMore i o).iaddr) =
      s.readByte .imem (operandAddress s.iaddr) := rfl
  unfold decodePhase
  rw [hr, show (s.withMore i o).fl = s.fl from rfl]
  cases s.readByte .imem (operandAddress s.iaddr) with
  | none => rfl
  | some b => cases decodeOpcode s.fl <;> rfl

theorem executeAlu_withMore (op : AluOp) (b a : Byte) (s : State) (i : List (Option Byte)) (o : List Bool) :
    executeAlu op b a (s.withMore i o) = (executeAlu op b a s).withMore i o := by
  rcases executeAlu_cases op b a s with ⟨h, e⟩ | ⟨h, e⟩ <;>
    rcases executeAlu_cases op b a (s.withMore i o) with ⟨h', e'⟩ | ⟨h', e'⟩ <;> rw [e, e']
  · rfl
  · exact absurd h (Nat.not_le_of_lt h')
  · exact absurd h' (Nat.not_le_of_lt h)
  · rfl

/-- An instruction that has the poll it needs does the same whatever the host's later polls are. -/
theorem exec_withMore {j : Instr} {s t : State} (i : List (Option Byte)) (o : List Bool)
    (hi : j = .inp j.operand → s.inPort ≠ []) (ho : j = .out j.operand → s.outPort ≠ []) (h : exec j s = .next t) :
    exec j (s.withMore i o) = .next (t.withMore i o) := by
  cases j with
  | add a | sub a | mul a => cases h; exact congrArg _ (executeAlu_withMore ..)
  | jmp a | jeq a | jne a | jgt a | jlt a | jz a | jnz a =>
    cases h
    show Host.Outcome.next (resolve _ a (s.withMore i o)) = _
    rw [resolve_eq, resolve_eq]
    rfl
  | hlt a => cases h; rfl
  | dat a => cases h
  | div a =>
    change execDiv a s = _ at h
    rcases execDiv_cases a s with ⟨g, e⟩ | ⟨g, gz, e⟩ | ⟨g, gz, e⟩ <;> rw [e] at h <;> cases h <;>
      rcases execDiv_cases a (s.withMore i o) with ⟨g', e'⟩ | ⟨g', gz', e'⟩ | ⟨g', gz', e'⟩ <;>
      first
        | exact e'
        | exact absurd g' (Nat.not_lt_of_le g)
        | exact absurd g (Nat.not_lt_of_le g')
        | exact absurd gz gz'
        | exact absurd gz' gz
  | sta a =>
    change execSta a s = _ at h
    rcases execSta_cases a s with ⟨g, e⟩ | ⟨g, e⟩ <;> rw [e] at h <;> cases h <;>
      rcases execSta_cases a (s.withMore i o) with ⟨g', e'⟩ | ⟨g', e'⟩ <;>
      first
        | exact e'
        | exact absurd g' (Nat.not_lt_of_le g)
        | exact absurd g (Nat.not_lt_of_le g')
  | lda a =>
    change execLda a s = _ at h
    rcases execLda_cases a s with ⟨g, e⟩ | ⟨g, e⟩ <;> rw [e] at h <;> cases h <;>
      rcases execLda_cases a (s.withMore i o) with ⟨g', e'⟩ | ⟨g', e'⟩ <;>
      first
        | exact e'
        | exact absurd g' (Nat.not_lt_of_le g)
        | exact absurd g (Nat.not_lt_of_le g')
  | inp a =>
    change execInp a s = _ at h
    rcases execInp_cases a s with ⟨g, e⟩ | ⟨r, g, e⟩ | ⟨v, r, g, e⟩
    · exact absurd g (hi rfl)
    all_goals
      rw [e] at h
      cases h
      rcases execInp_cases a (s.withMore i o) with ⟨g', e'⟩ | ⟨r', g', e'⟩ | ⟨v', r', g', e'⟩ <;>
        simp [State.withMore, g] at g'
    · refine e'.trans ?_
      rw [← g']
      rfl
    · refine e'.trans ?_
      rw [← g'.1, ← g'.2]
      rfl
  | out a =>
    change execOut a s = _ at h
    rcases execOut_cases a s with ⟨g, e⟩ | ⟨r, g, e⟩ | ⟨r, g, e⟩
    · exact absurd g (ho rfl)
    all_goals
      rw [e] at h
      cases h
      rcases execOut_cases a (s.withMore i o) with ⟨g', e'⟩ | ⟨r', g', e'⟩ | ⟨r', g', e'⟩ <;>
        simp [State.withMore, g] at g'
      refine e'.trans ?_
      rw [← g']
      rfl

/-- A waiting port is stuck exactly when the host has no polls left. -/
theorem State.stuck_eq_false_of_instruction {s : State} {j : Instr} (hp : s.phase = .execute)
    (hj : s.ir.instruction = some j) (hk : s.stuck = false) :
    (j = .inp j.operand → s.inPort ≠ []) ∧ (j = .out j.operand → s.outPort ≠ []) := by
  obtain ⟨hv, hop, -⟩ := InstrReg.instruction_eq_some hj
  simp only [State.stuck, State.inReq, State.outValid, hp, hv, hop, Bool.or_eq_false_iff] at hk
  refine ⟨fun e h => ?_, fun e h => ?_⟩
  · have := hk.1
    rw [e, h] at this
    simp [Instr.opcode] at this
  · have := hk.2
    rw [e, h] at this
    simp [Instr.opcode] at this

/-- More polls than a state needs do not make it stuck. -/
theorem State.stuck_withMore {s : State} (i : List (Option Byte)) (o : List Bool) (h : s.stuck = false) :
    (s.withMore i o).stuck = false := by
  have hq : (s.withMore i o).inReq = s.inReq := rfl
  have hv : (s.withMore i o).outValid = s.outValid := rfl
  simp only [State.stuck, Bool.or_eq_false_iff, Bool.and_eq_false_imp, decide_eq_false_iff_not] at h ⊢
  rw [hq, hv]
  refine ⟨fun a b => h.1 a ?_, fun a b => h.2 a ?_⟩
  · exact (List.append_eq_nil_iff.mp b).1
  · exact (List.append_eq_nil_iff.mp b).1

/-- A step of a state that is not stuck does the same whatever the host's later polls are. -/
theorem step_withMore {s t : State} (i : List (Option Byte)) (o : List Bool) (hk : s.stuck = false)
    (h : step s = .next t) : step (s.withMore i o) = .next (t.withMore i o) := by
  cases hr : s.phase.isRunning
  case false =>
    rw [step_of_stopped hr] at h
    cases h
    rw [step_of_stopped (s := s.withMore i o) hr, State.hostMove_withMore]
  case true =>
    rcases step_running_cases hr h with ⟨hp, rfl⟩ | ⟨hp, rfl⟩ | ⟨hp, j, hj, he⟩
    · rw [step_of_fetch (s := s.withMore i o) hp, fetchPhase_withMore]
    · rw [step_of_decode (s := s.withMore i o) hp, decodePhase_withMore]
    · obtain ⟨hi, ho⟩ := State.stuck_eq_false_of_instruction hp hj hk
      rw [step_of_execute (s := s.withMore i o) hp, executePhase_of_instruction (s := s.withMore i o) hj]
      exact exec_withMore i o hi ho he

/-- A step that is refused, or stops, does so whatever the host's polls are. -/
theorem step_stop_withMore {s : State} (i : List (Option Byte)) (o : List Bool) :
    (∀ r, step s = .refused r → step (s.withMore i o) = .refused r) ∧
    (∀ r, step s = .fault r → step (s.withMore i o) = .fault r) := by
  have key : ∀ x : Result, step s = x → (∀ t, x ≠ .next t) → step (s.withMore i o) = x := by
    intro x h hn
    cases hp : s.phase
    case execute =>
      rw [step_of_execute hp] at h
      rw [step_of_execute (s := s.withMore i o) hp]
      unfold executePhase at h ⊢
      rw [show (s.withMore i o).ir = s.ir from rfl]
      cases hj : s.ir.instruction with
      | none => simpa [hj] using h
      | some j =>
        simp only [hj] at h ⊢
        cases hx : exec j s with
        | next t => exact absurd (h.symm.trans hx) (hn t)
        | fault r => exact absurd hx (exec_ne_fault j s r)
        | refused r =>
          obtain ⟨hd, rfl⟩ := exec_refused hx
          rw [← h, hx, hd]
          rfl
    case fetch => exact absurd (h.symm.trans (step_of_fetch hp)) (hn _)
    case decode => exact absurd (h.symm.trans (step_of_decode hp)) (hn _)
    all_goals exact absurd (h.symm.trans (step_of_stopped (by rw [hp]; rfl))) (hn _)
  exact ⟨fun r h => key _ h (by simp), fun r h => key _ h (by simp)⟩

theorem State.runEnd_withMore {s : State} (i : List (Option Byte)) (o : List Bool) (h : s.runEnd ≠ some .stuck) :
    (s.withMore i o).runEnd = s.runEnd := by
  rcases s.runEnd_cases with
    ⟨hp, e⟩ | ⟨hp, e⟩ | ⟨hp, hk, e⟩ | ⟨hp, hk, r, hs, e⟩ | ⟨hp, hk, r, hs, e⟩ | ⟨hk, t, hs, e⟩
  · rw [e]; simp [State.runEnd, State.withMore, hp]
  · rw [e]; simp [State.runEnd, State.withMore, hp]
  · exact absurd e h
  · rw [e, State.runEnd_of_execute (s := s.withMore i o) hp, State.stuck_withMore i o hk,
      (step_stop_withMore i o).1 r hs]
    rfl
  · rw [e, State.runEnd_of_execute (s := s.withMore i o) hp, State.stuck_withMore i o hk,
      (step_stop_withMore i o).2 r hs]
    rfl
  · rw [e]
    rcases (s.withMore i o).runEnd_cases with
      ⟨hp, e'⟩ | ⟨hp, e'⟩ | ⟨hp, hk', e'⟩ | ⟨hp, -, r, hs', e'⟩ | ⟨hp, -, r, hs', e'⟩ | ⟨-, u, hs', e'⟩
    · rw [show s.runEnd = some .halted by simp [State.runEnd, show s.phase = .halted from hp]] at e; cases e
    · rw [show s.runEnd = some (.faulted s.fault) by simp [State.runEnd, show s.phase = .faulted from hp]] at e; cases e
    · rw [State.stuck_withMore i o hk] at hk'; cases hk'
    · rw [step_withMore i o hk hs] at hs'; cases hs'
    · rw [step_withMore i o hk hs] at hs'; cases hs'
    · exact e'

/-- A run that does not get stuck is the same whatever the host's later polls are. -/
theorem State.endWithin_withMore (i : List (Option Byte)) (o : List Bool) :
    ∀ {n : Nat} {s : State}, State.endWithin n s ≠ some .stuck →
      State.endWithin n (s.withMore i o) = State.endWithin n s := by
  intro n
  induction n with
  | zero => exact fun {s} h => State.runEnd_withMore i o h
  | succ n ih =>
    intro s h
    cases he : s.runEnd with
    | some e =>
      have hs := State.endWithin_of_runEnd he (n + 1)
      have hm : (s.withMore i o).runEnd = some e := by
        rw [State.runEnd_withMore i o (by rw [he, ← hs]; exact h), he]
      rw [hs, State.endWithin_of_runEnd hm]
    | none =>
      obtain ⟨hk, t, ht⟩ := State.step_of_runEnd_none he
      have hm : (s.withMore i o).runEnd = none := by rw [State.runEnd_withMore i o (by simp [he]), he]
      rw [State.endWithin_succ he ht] at h ⊢
      rw [State.endWithin_succ hm (step_withMore i o hk ht)]
      exact ih h

/-! ### A host that answers every request -/

/-- Later answers come after the earlier ones. -/
theorem State.withHost_add (s : State) (h : PortHost) (k m : Nat) :
    ∃ i o, s.withHost h (k + m) = (s.withHost h k).withMore i o := by
  refine ⟨(List.range m).flatMap (fun j => List.replicate (h.inDelay (k + j)) none ++ [some (h.bytes (k + j))]),
    (List.range m).flatMap (fun j => List.replicate (h.outDelay (k + j)) false ++ [true]), ?_⟩
  simp [State.withHost, State.withMore, PortHost.inAnswers, PortHost.outAnswers, List.range_add, List.flatMap_append,
    List.flatMap_map]

/-- What a run does before it gets stuck, it does with more of the host's answers at hand. -/
theorem State.endWithin_withHost {s : State} {h : PortHost} {k m n : Nat} (hk : k ≤ m)
    (hs : State.endWithin n (s.withHost h k) ≠ some .stuck) :
    State.endWithin n (s.withHost h m) = State.endWithin n (s.withHost h k) := by
  obtain ⟨i, o, e⟩ := s.withHost_add h k (m - k)
  rw [show k + (m - k) = m by omega] at e
  rw [e]
  exact State.endWithin_withMore i o hs

/-- The end of a run with a host that answers every request is one. -/
theorem State.EndsWith.unique {s : State} {h : PortHost} {e e' : RunEnd} (a : s.EndsWith h e) (b : s.EndsWith h e') :
    e = e' := by
  obtain ⟨-, ne, k, n, hn⟩ := a
  obtain ⟨-, ne', m, l, hl⟩ := b
  have x := State.endWithin_withHost (Nat.le_max_left k m) (n := n) (by rw [hn]; simpa using ne)
  have y := State.endWithin_withHost (Nat.le_max_right k m) (n := l) (by rw [hl]; simpa using ne')
  exact State.endWithin_unique (x.trans hn) (y.trans hl)

/-- The rows "halted", "faulted" and "refused" of R268's table on the one hand, and "never" on the other, exclude each
other. -/
theorem State.RunsForEver.not_endsWith {s : State} {h : PortHost} {e : RunEnd} (a : s.RunsForEver h) :
    ¬ s.EndsWith h e := by
  rintro ⟨-, ne, k, n, hn⟩
  obtain ⟨m, hm⟩ := a.2 n
  have x := State.endWithin_withHost (Nat.le_max_left k m) (n := n) (by rw [hn]; simpa using ne)
  have y := State.endWithin_withHost (Nat.le_max_right k m) (n := n) (by rw [hm]; simp)
  have := (x.trans hn).symm.trans (y.trans hm)
  cases this

end Sys2Proof.Machine
end

