-- ==== Sys2Proof/Tests/Slice0.lean ====
section
/-! SUPPORT. Tests: the ill-formed terms that the checks of WellFormed.lean refuse, one written-out word per
instruction, one step per instruction with the expected values of spec/95_test_vectors.md, and a witness for the
hypotheses of each statement of Certificates/Slice0/Obligations.lean. -/

namespace Sys2Proof.Tests

open Sys2Proof.Machine

/-! ### WellFormed (00_scope.md R6, 30_encoding.md R85, R86, 20_memory.md R67) -/

theorem test_config_refuses_empty_imem : Config.wellFormed ⟨0, 256, false⟩ = false := by decide
theorem test_config_refuses_empty_dmem : Config.wellFormed ⟨256, 0, false⟩ = false := by decide
theorem test_config_refuses_oversized_imem : Config.wellFormed ⟨4294967296, 256, false⟩ = false := by decide
theorem test_config_refuses_oversized_dmem : Config.wellFormed ⟨256, 4294967296, false⟩ = false := by decide
theorem test_config_accepts_limits : Config.wellFormed ⟨1, 4294967295, true⟩ = true := by decide
theorem test_opcode_byte_refuses_00 : opcodeByteValid 0x00#8 = false := by decide
theorem test_opcode_byte_refuses_12 : opcodeByteValid 0x12#8 = false := by decide
theorem test_opcode_byte_accepts_11 : opcodeByteValid 0x11#8 = true := by decide
theorem test_image_of_five_bytes_refused : imageFits 4 [1, 2, 3, 4, 5] = false := by decide
theorem test_image_of_four_bytes_fits : imageFits 4 [1, 2, 3, 4] = true := by decide
theorem test_every_operand_well_formed : (Instr.hlt 0xFF#8).wellFormed = true := by decide

/-! ### Decoding: the bytes of 30_encoding.md R82 and 95_test_vectors.md section 2.1, bit by bit -/

theorem test_decode_add : decodeBytes 0b00000001#8 0b00101010#8 = .ok (.add 0x2A#8) := by decide
theorem test_decode_sub : decodeBytes 0b00000010#8 0b00000001#8 = .ok (.sub 0x01#8) := by decide
theorem test_decode_mul : decodeBytes 0b00000011#8 0b10000000#8 = .ok (.mul 0x80#8) := by decide
theorem test_decode_div : decodeBytes 0b00000100#8 0b00000001#8 = .ok (.div 0x01#8) := by decide
theorem test_decode_sta : decodeBytes 0b00000101#8 0b00000111#8 = .ok (.sta 0x07#8) := by decide
theorem test_decode_lda : decodeBytes 0b00000110#8 0b00000000#8 = .ok (.lda 0x00#8) := by decide
theorem test_decode_jmp : decodeBytes 0b00000111#8 0b00001010#8 = .ok (.jmp 0x0A#8) := by decide
theorem test_decode_jeq : decodeBytes 0b00001000#8 0b00010000#8 = .ok (.jeq 0x10#8) := by decide
theorem test_decode_jne : decodeBytes 0b00001001#8 0b00000000#8 = .ok (.jne 0x00#8) := by decide
theorem test_decode_jgt : decodeBytes 0b00001010#8 0b00001000#8 = .ok (.jgt 0x08#8) := by decide
theorem test_decode_jlt : decodeBytes 0b00001011#8 0b00100000#8 = .ok (.jlt 0x20#8) := by decide
theorem test_decode_jz : decodeBytes 0b00001100#8 0b00000000#8 = .ok (.jz 0x00#8) := by decide
theorem test_decode_jnz : decodeBytes 0b00001101#8 0b00000010#8 = .ok (.jnz 0x02#8) := by decide
theorem test_decode_hlt : decodeBytes 0b00001110#8 0b11111111#8 = .ok (.hlt 0xFF#8) := by decide
theorem test_decode_inp : decodeBytes 0b00001111#8 0b00000000#8 = .ok (.inp 0x00#8) := by decide
theorem test_decode_out : decodeBytes 0b00010000#8 0b11111111#8 = .ok (.out 0xFF#8) := by decide
theorem test_decode_dat : decodeBytes 0b00010001#8 0b00000101#8 = .ok (.dat 0x05#8) := by decide

theorem test_decode_refuses_00 : decode [0x00#8, 0x00#8] = .error (.invalidOpcode 0x00#8) := by decide
theorem test_decode_refuses_12 : decode [0x12#8, 0x34#8] = .error (.invalidOpcode 0x12#8) := by decide
theorem test_decode_refuses_80 : decode [0x80#8, 0x01#8] = .error (.invalidOpcode 0x80#8) := by decide
theorem test_decode_refuses_ff : decode [0xFF#8, 0xFF#8] = .error (.invalidOpcode 0xFF#8) := by decide
theorem test_decode_refuses_one_byte : decode [0x01#8] = .error .truncated := by decide

/-- The table's word 0x0600 is LDA with operand 0x00 (95_test_vectors.md 2.1). -/
theorem test_table_word_lda : decodeTableWord 16 0x0600 = some (.lda 0x00#8) := by decide
theorem test_table_word_dat : decodeTableWord 16 0x1105 = some (.dat 0x05#8) := by decide
theorem test_table_word_invalid : decodeTableWord 16 0x1234 = none := by decide

/-! ### Small states -/

/-- A machine of 256 and 16 bytes about to fetch the instruction `op x` at 0x10, with the given ACC and DMEM[3]. -/
def bench (op x acc m : Byte) : State :=
  { State.powerOn ⟨256, 16, false⟩ with
    pc := 0x10#8, acc := acc, running := true, phase := .fetch
    imem := Memory.set (Memory.set [] 0x10 op) 0x11 x
    dmem := Memory.set [] 3 m }

/-- The same machine with `ACC_CMP_SIGNED = true`. -/
def benchSigned (op x acc : Byte) : State := { bench op x acc 0x00#8 with cfg := ⟨256, 16, true⟩ }

/-- The same machine in EXECUTE of that instruction. -/
def inExecute (op x acc m : Byte) : State :=
  { bench op x acc m with phase := .execute, pc := 0x12, iaddr := 0x10, fl := op, ir := ⟨true, op, x⟩ }

/-- Whether the outcome is a next state with this property. -/
def nextIs (r : Result) (p : State → Bool) : Bool :=
  match r with
  | .next t => p t
  | .fault _ | .refused _ => false

/-- Whether the outcome is the refusal of DAT. -/
def refusedDat : Result → Bool
  | .refused .datExecute => true
  | _ => false

/-! ### One cycle per instruction; expected values from 95_test_vectors.md sections 2.3 to 2.8 -/

theorem test_step_add_wraps :
    nextIs (cycle (bench 0x01 0x03 0xFF 0x01)) (fun t => decide (t.acc = 0x00 ∧ t.pc = 0x12 ∧ t.phase = .fetch)) = true := by
  decide

theorem test_step_add_out_of_bounds :
    nextIs (cycle (bench 0x01 0x10 0x05 0x00)) (fun t => decide (t.phase = .faulted ∧ t.acc = 0x05 ∧
      t.fault = ⟨.outOfBounds, .dmem, 16, 0x10, 0x01, true, 0x10⟩)) = true := by
  decide

theorem test_step_sub_wraps :
    nextIs (cycle (bench 0x02 0x03 0x03 0x05)) (fun t => decide (t.acc = 0xFE ∧ t.pc = 0x12)) = true := by decide

theorem test_step_mul_truncates :
    nextIs (cycle (bench 0x03 0x03 0xFF 0xFF)) (fun t => decide (t.acc = 0x01 ∧ t.pc = 0x12)) = true := by decide

theorem test_step_div_drops_remainder :
    nextIs (cycle (bench 0x04 0x03 0xC8 0x07)) (fun t => decide (t.acc = 0x1C ∧ t.pc = 0x12)) = true := by decide

theorem test_step_div_by_zero :
    nextIs (cycle (bench 0x04 0x03 0x37 0x00)) (fun t => decide (t.phase = .faulted ∧ t.acc = 0x37 ∧
      t.fault = ⟨.divisionByZero, .imem, 0, 0x10, 0x04, true, 0x03⟩)) = true := by
  decide

theorem test_step_sta_stores :
    nextIs (cycle (bench 0x05 0x05 0x9A 0x00)) (fun t => decide (t.dmem = [(5, 0x9A)] ∧ t.acc = 0x9A)) = true := by decide

theorem test_step_sta_out_of_bounds :
    nextIs (cycle (bench 0x05 0x10 0x05 0x00)) (fun t => decide (t.dmem = [] ∧
      t.fault = ⟨.outOfBounds, .dmem, 16, 0x10, 0x05, true, 0x10⟩)) = true := by
  decide

theorem test_step_lda_loads :
    nextIs (cycle (bench 0x06 0x03 0x11 0x9A)) (fun t => decide (t.acc = 0x9A ∧ t.dmem = [(3, 0x9A)])) = true := by decide

theorem test_step_lda_last_byte :
    nextIs (cycle (bench 0x06 0x0F 0x11 0x9A)) (fun t => decide (t.acc = 0x00 ∧ t.phase = .fetch)) = true := by decide

theorem test_step_jmp : nextIs (cycle (bench 0x07 0x40 0x80 0)) (fun t => decide (t.pc = 0x40)) = true := by decide
theorem test_step_jeq_taken : nextIs (cycle (bench 0x08 0x40 0x00 0)) (fun t => decide (t.pc = 0x40)) = true := by decide
theorem test_step_jeq_not : nextIs (cycle (bench 0x08 0x40 0x01 0)) (fun t => decide (t.pc = 0x12)) = true := by decide
theorem test_step_jne_taken : nextIs (cycle (bench 0x09 0x40 0xFF 0)) (fun t => decide (t.pc = 0x40)) = true := by decide
theorem test_step_jne_not : nextIs (cycle (bench 0x09 0x40 0x00 0)) (fun t => decide (t.pc = 0x12)) = true := by decide
theorem test_step_jgt_unsigned_80 : nextIs (cycle (bench 0x0A 0x40 0x80 0)) (fun t => decide (t.pc = 0x40)) = true := by
  decide
theorem test_step_jgt_signed_80 : nextIs (cycle (benchSigned 0x0A 0x40 0x80)) (fun t => decide (t.pc = 0x12)) = true := by
  decide
theorem test_step_jlt_unsigned_80 : nextIs (cycle (bench 0x0B 0x40 0x80 0)) (fun t => decide (t.pc = 0x12)) = true := by
  decide
theorem test_step_jlt_signed_80 : nextIs (cycle (benchSigned 0x0B 0x40 0x80)) (fun t => decide (t.pc = 0x40)) = true := by
  decide
theorem test_step_jz_taken : nextIs (cycle (bench 0x0C 0x40 0x00 0)) (fun t => decide (t.pc = 0x40)) = true := by decide
theorem test_step_jz_not : nextIs (cycle (bench 0x0C 0x40 0x80 0)) (fun t => decide (t.pc = 0x12)) = true := by decide
theorem test_step_jnz_taken : nextIs (cycle (bench 0x0D 0x40 0x01 0)) (fun t => decide (t.pc = 0x40)) = true := by decide
theorem test_step_jnz_not : nextIs (cycle (bench 0x0D 0x40 0x00 0)) (fun t => decide (t.pc = 0x12)) = true := by decide

theorem test_step_hlt_ignores_operand :
    nextIs (cycle (bench 0x0E 0xFF 0x07 0)) (fun t => decide (t.running = false ∧ t.phase = .halted ∧ t.pc = 0x12 ∧
      t.ir = ⟨true, 0x0E, 0xFF⟩ ∧ t.fl = 0x0E)) = true := by
  decide

theorem test_step_inp_takes_byte :
    nextIs (cycle { bench 0x0F 0x00 0x00 0 with inPort := [some 0x81] }) (fun t => decide (t.acc = 0x81 ∧
      t.phase = .fetch ∧ t.inPort = [] ∧ t.events = [.input 0x81])) = true := by
  decide

theorem test_step_inp_unanswered :
    nextIs (cycle (bench 0x0F 0x00 0x55 0)) (fun t => decide (t.phase = .execute ∧ t.running = true ∧ t.inReq = true ∧
      t.pc = 0x12 ∧ t.acc = 0x55 ∧ t.stuck = true)) = true := by
  decide

theorem test_step_out_sends_acc :
    nextIs (cycle { bench 0x10 0xFF 0x06 0 with outPort := [true] }) (fun t => decide (t.events = [.output 0x06] ∧
      t.acc = 0x06 ∧ t.phase = .fetch)) = true := by
  decide

theorem test_step_out_unanswered :
    nextIs (cycle (bench 0x10 0xFF 0x06 0)) (fun t => decide (t.phase = .execute ∧ t.outValid = true ∧
      t.outData = 0x06 ∧ t.events = [])) = true := by
  decide

/-- 95_test_vectors.md 2.7: FETCH and DECODE of a DAT are steps; the machine then stands in EXECUTE, running. -/
theorem test_step_dat_fetches :
    nextIs (step (bench 0x11 0x05 0x00 0)) (fun t => decide (t.phase = .decode ∧ t.pc = 0x12 ∧ t.fl = 0x11 ∧
      t.iaddr = 0x10)) = true := by
  decide

theorem test_dat_stops_in_execute :
    nextIs (Host.Core.run core 2 (bench 0x11 0x05 0x00 0)) (fun t => decide (t.phase = .execute ∧ t.pc = 0x12 ∧
      t.fl = 0x11 ∧ t.ir = ⟨true, 0x11, 0x05⟩ ∧ t.running = true ∧ t.fault = FaultRecord.clear) && refusedDat (step t)) =
      true := by
  decide

/-! ### Faults of FETCH and DECODE, PC wrap (95_test_vectors.md 2.1, 2.2) -/

theorem test_step_invalid_opcode :
    nextIs (cycle (bench 0x12 0x34 0x00 0)) (fun t => decide (t.phase = .faulted ∧ t.ir = InstrReg.empty ∧ t.pc = 0x12 ∧
      t.fl = 0x12 ∧ t.fault = ⟨.invalidOpcode, .imem, 0, 0x10, 0x12, true, 0x34⟩)) = true := by
  decide

theorem test_step_pc_wraps :
    nextIs (cycle { bench 0 0 0 0x55 with pc := 0xFE, imem := [(0xFE, 0x06), (0xFF, 0x03)] })
      (fun t => decide (t.pc = 0x00 ∧ t.acc = 0x55 ∧ t.iaddr = 0xFE)) = true := by
  decide

theorem test_step_operand_at_256_faults :
    nextIs (cycle { bench 0 0 0 0 with pc := 0xFF, imem := [(0xFF, 0x0E)] })
      (fun t => decide (t.pc = 0x01 ∧ t.fault = ⟨.outOfBounds, .imem, 256, 0xFF, 0x0E, false, 0⟩)) = true := by
  decide

theorem test_step_operand_at_256_in_larger_imem :
    nextIs (cycle { bench 0 0 0 0 with cfg := ⟨512, 16, false⟩, pc := 0xFF, imem := [(0xFF, 0x0E)] })
      (fun t => decide (t.pc = 0x01 ∧ t.phase = .halted ∧ t.ir = ⟨true, 0x0E, 0x00⟩)) = true := by
  decide

theorem test_step_opcode_fetch_faults :
    nextIs (cycle { bench 0 0 0 0 with cfg := ⟨4, 16, false⟩, pc := 0x04, imem := [] })
      (fun t => decide (t.pc = 0x04 ∧ t.fault = ⟨.outOfBounds, .imem, 4, 0x04, 0, false, 0⟩)) = true := by
  decide

theorem test_step_out_of_bounds_before_invalid_opcode :
    nextIs (cycle { bench 0 0 0 0 with cfg := ⟨4, 16, false⟩, pc := 0x03, imem := [(3, 0x12)] })
      (fun t => decide (t.pc = 0x05 ∧ t.fault = ⟨.outOfBounds, .imem, 4, 0x03, 0x12, false, 0⟩)) = true := by
  decide

theorem test_fault_kind_codes :
    FaultKind.noFault.code = 0#2 ∧ FaultKind.invalidOpcode.code = 1#2 ∧ FaultKind.outOfBounds.code = 2#2 ∧
      FaultKind.divisionByZero.code = 3#2 ∧ Space.imem.code = 0#1 ∧ Space.dmem.code = 1#1 := by
  decide

/-! ### The host's operations (95_test_vectors.md L1-5, 2.9) -/

theorem test_load_program_oversized :
    nextIs (step { State.powerOn ⟨4, 16, false⟩ with commands := [.loadProgram [1, 2, 3, 4, 5]] })
      (fun t => decide (t.imem = [] ∧ t.phase = .loaded ∧ t.replies = [.outOfBounds .imem 4])) = true := by
  decide

theorem test_load_program_odd_length :
    nextIs (step { State.reset with commands := [.loadProgram [0x0E]], pc := 0x08, phase := .halted })
      (fun t => decide (t.imem = [(0, 0x0E)] ∧ t.phase = .loaded ∧ t.pc = 0x00)) = true := by
  decide

theorem test_host_read_word_out_of_bounds :
    nextIs (step { State.powerOn ⟨4, 16, false⟩ with commands := [.readWord .dmem 15] })
      (fun t => decide (t.replies = [.outOfBounds .dmem 15])) = true := by
  decide

theorem test_host_read_word_big_endian :
    nextIs (step { State.powerOn ⟨4, 16, false⟩ with commands := [.readWord .dmem 14], dmem := [(14, 0x12), (15, 0x34)] })
      (fun t => decide (t.replies = [.word 0x1234])) = true := by
  decide

theorem test_host_write_word_big_endian :
    nextIs (step { State.powerOn ⟨4, 16, false⟩ with commands := [.writeWord .dmem 4 0xBEEF] })
      (fun t => decide (t.dmem = [(4, 0xBE), (5, 0xEF)])) = true := by
  decide

theorem test_start_in_halted_changes_nothing :
    nextIs (step { State.reset with phase := .halted, commands := [.start] })
      (fun t => decide (t.phase = .halted ∧ t.running = false ∧ t.replies = [.returned .halted])) = true := by
  decide

theorem test_step_runs_fetch_word :
    nextIs (step (State.reset.withFetchWord 16 0x0740)) (fun t => decide (t.pc = 0x40 ∧ t.phase = .fetch)) = true := by
  decide

/-! ### Memory keeps its canonical form at reset -/

theorem test_reset_memories_wf : State.reset.imem.wf ∧ State.reset.dmem.wf := by decide

/-- A word that spells no instruction stands before the step that faults on it. -/
theorem test_step_faults_on_invalid_fetch_word :
    nextIs (step (State.reset.withFetchWord 16 0x1234)) (fun t => decide (t.phase = .faulted ∧
      t.fault = ⟨.invalidOpcode, .imem, 0, 0x00, 0x12, true, 0x34⟩)) = true := by
  decide

/-! ### How a run ends (70_reset_and_hazards.md R268) -/

/-- A launch state: a code image in IMEM, `start()` next, and then the host's operations `more`. -/
def launch (image : List Byte) (more : List HostCommand) : State :=
  { State.powerOn ⟨4, 16, false⟩ with imem := Memory.load [] 0 image, commands := .start :: more }

/-- After the run's end, the host loads and starts a program of one HLT. -/
def reloadHlt : List HostCommand := [.loadProgram [0x0E], .start]

theorem test_run_of_dat_is_refused :
    State.endWithin 3 (launch [0x11, 0x05] []) = some (.refused .datExecute) ∧
      State.endWithin 2 (launch [0x11, 0x05] []) = none := by
  decide

theorem test_run_of_unanswered_inp_is_stuck : State.endWithin 3 (launch [0x0F, 0x00] []) = some .stuck := by decide

theorem test_faulted_run_does_not_end_well (allowed : (Nat → Byte) → Prop) (h : PortHost) (ha : allowed h.bytes) :
    ¬ EndsWell (launch [0x12, 0x00] reloadHlt) allowed := by
  rintro ⟨hl, w⟩
  have hf : ∃ r, (launch [0x12, 0x00] reloadHlt).EndsWith h (.faulted r) := ⟨_, hl, by simp, 0, 3, rfl⟩
  obtain ⟨r, hf⟩ := hf
  cases (w h ha).unique hf

theorem test_hlt_ends_well : EndsWell (launch [0x0E, 0x00] []) (fun _ => True) :=
  ⟨⟨rfl, [], rfl⟩, fun _ _ => ⟨⟨rfl, [], rfl⟩, by simp, 0, 4, rfl⟩⟩

/-- The loop OUT; JMP 0, under way: what its states have in common. -/
def OutLoop (s : State) : Prop :=
  s.cfg = ⟨4, 16, false⟩ ∧ s.imem = Memory.load [] 0 [0x10, 0x00, 0x07, 0x00] ∧
    (s.phase = .fetch ∧ (s.pc = 0 ∨ s.pc = 2) ∨
      s.phase = .decode ∧ (s.fl = 0x10 ∧ s.iaddr = 0 ∧ s.pc = 2 ∨ s.fl = 0x07 ∧ s.iaddr = 2) ∨
      s.phase = .execute ∧ (s.ir = ⟨true, 0x10, 0⟩ ∧ s.pc = 2 ∨ s.ir = ⟨true, 0x07, 0⟩))

/-- While the host has a poll of the output port left, the loop goes on, and a step spends one poll at most. -/
theorem OutLoop.step {s : State} (h : OutLoop s) (ho : 0 < s.outPort.length) :
    s.runEnd = none ∧ ∃ t, Machine.step s = .next t ∧ OutLoop t ∧ s.outPort.length ≤ t.outPort.length + 1 := by
  obtain ⟨hc, hm, ⟨hp, h⟩ | ⟨hp, h⟩ | ⟨hp, h⟩⟩ := h
  · refine ⟨by simp [State.runEnd, hp], _, step_of_fetch hp, ?_⟩
    rcases fetchPhase_cases s with ⟨hb, e⟩ | ⟨-, e⟩
    · rcases h with h | h <;> rw [hc, h] at hb <;> exact absurd hb (by decide)
    · rw [e]
      refine ⟨⟨hc, hm, .inr (.inl ⟨rfl, ?_⟩)⟩, Nat.le_succ _⟩
      rcases h with h | h
      · exact .inl (by simp only [h, hm]; decide)
      · exact .inr (by simp only [h, hm]; decide)
  · refine ⟨by simp [State.runEnd, hp], _, step_of_decode hp, ?_⟩
    rcases decodePhase_cases s with ⟨hb, e⟩ | ⟨-, hv, e⟩ | ⟨-, -, e⟩
    · rcases h with ⟨-, h, -⟩ | ⟨-, h⟩ <;> rw [hc, h] at hb <;> exact absurd hb (by decide)
    · rcases h with ⟨h, -⟩ | ⟨h, -⟩ <;> rw [h] at hv <;> exact absurd hv (by decide)
    · rw [e]
      refine ⟨⟨hc, hm, .inr (.inr ⟨rfl, ?_⟩)⟩, Nat.le_succ _⟩
      rcases h with ⟨h, hi, hpc⟩ | ⟨h, hi⟩
      · exact .inl ⟨by simp only [h, hi, hm]; decide, hpc⟩
      · exact .inr (by simp only [h, hi, hm]; decide)
  · rcases h with ⟨h, hpc⟩ | h
    · have hx : Machine.step s = execOut 0 s := by
        rw [step_of_execute hp, executePhase_of_instruction (i := .out 0) (by rw [h]; rfl)]
        rfl
      have hk : s.stuck = false := by
        have : s.outPort ≠ [] := List.length_pos_iff.mp ho
        simp [State.stuck, State.inReq, State.outValid, h, hp, this, Opcode.byte]
      rw [State.runEnd_of_execute hp, hk, hx]
      rcases execOut_cases 0 s with ⟨g, -⟩ | ⟨r, g, e⟩ | ⟨r, g, e⟩
      · rw [g] at ho; exact absurd ho (by decide)
      · exact ⟨by rw [e]; rfl, _, e, ⟨hc, hm, .inr (.inr ⟨hp, .inl ⟨h, hpc⟩⟩)⟩, by rw [g]; exact le_rfl⟩
      · exact ⟨by rw [e]; rfl, _, e, ⟨hc, hm, .inl ⟨rfl, .inr hpc⟩⟩, by rw [g]; exact le_rfl⟩
    · have hx : Machine.step s = .next (resolve .always 0 s) := by
        rw [step_of_execute hp, executePhase_of_instruction (i := .jmp 0) (by rw [h]; rfl)]
        rfl
      have hk : s.stuck = false := by simp [State.stuck, State.inReq, State.outValid, h, Opcode.byte]
      rw [State.runEnd_of_execute hp, hk, hx]
      refine ⟨rfl, _, rfl, ?_⟩
      rw [resolve_eq]
      exact ⟨⟨hc, hm, .inl ⟨rfl, .inl rfl⟩⟩, Nat.le_succ _⟩

/-- So it meets no end within as many steps as the host has polls. -/
theorem OutLoop.endWithin : ∀ {n : Nat} {s : State}, OutLoop s → n < s.outPort.length → State.endWithin n s = none
  | 0, _, h, hn => (h.step hn).1
  | n + 1, _, h, hn => by
    obtain ⟨he, t, ht, hl, hs⟩ := h.step (by omega)
    rw [State.endWithin_succ he ht]
    exact OutLoop.endWithin hl (by omega)

/-- R268, "never": OUT; JMP 0 runs for ever, whatever the delays of the host that takes its bytes. -/
theorem test_endless_output_runs_for_ever (h : PortHost) :
    (launch [0x10, 0x00, 0x07, 0x00] []).RunsForEver h := by
  refine ⟨⟨rfl, [], rfl⟩, fun n => ⟨n + 1, ?_⟩⟩
  have hlen : ∀ k, k ≤ (h.outAnswers k).length := by
    intro k
    induction k with
    | zero => exact Nat.zero_le _
    | succ k ih =>
      simp only [PortHost.outAnswers, List.range_succ, List.flatMap_append, List.length_append] at ih ⊢
      simp
      omega
  cases n with
  | zero => rfl
  | succ n =>
    rw [State.endWithin_succ rfl rfl]
    exact OutLoop.endWithin ⟨rfl, rfl, .inl ⟨rfl, .inl rfl⟩⟩ (Nat.lt_of_lt_of_le (by omega) (hlen (n + 1 + 1)))

/-- Where no run starts, none runs for ever. -/
theorem test_reset_starts_no_run (h : PortHost) : ¬ State.reset.RunsForEver h := by
  rintro ⟨⟨-, rest, e⟩, -⟩
  cases e

/-! ### Witnesses: for each statement with hypotheses, states and operands that meet them, one per clause -/

/-- A machine of 4 and 16 bytes in the given phase, with IADDR and PC in step. -/
def small (p : Phase) (pc iaddr fl : Byte) : State :=
  { State.powerOn ⟨4, 16, false⟩ with pc := pc, iaddr := iaddr, fl := fl, phase := p, running := p.isRunning }

theorem witness_OpcodeMapMutualInverse :
    (0x01 ≤ (0x01#8).toNat ∧ (0x01#8).toNat ≤ 0x11) ∧ (0x01 ≤ (0x11#8).toNat ∧ (0x11#8).toNat ≤ 0x11) ∧
      ¬ (0x01 ≤ (0x12#8).toNat ∧ (0x12#8).toNat ≤ 0x11) ∧ ¬ (0x01 ≤ (0x00#8).toNat ∧ (0x00#8).toNat ≤ 0x11) := by
  decide

theorem witness_InvalidOpcodeBytesRaise :
    (small .decode 0x04 0x02 0x12).phase = .decode ∧
      (small .decode 0x04 0x02 0x12).iaddr.toNat + 1 < (small .decode 0x04 0x02 0x12).cfg.imemSize ∧
      ((small .decode 0x04 0x02 0x12).fl = 0x00#8 ∨ 0x12 ≤ (small .decode 0x04 0x02 0x12).fl.toNat) := by
  decide

theorem witness_StepRunsDecodedInstruction :
    ((inExecute 0x01 0x03 0 0).phase = .execute ∧ (inExecute 0x01 0x03 0 0).ir.instruction = some (.add 0x03#8)) ∧
      (bench 0x01 0x03 0x00 0x00).phase = .fetch ∧ (Instr.add 0x03#8).wellFormed = true ∧
      (bench 0x01 0x03 0x00 0x00).readByte .imem (opcodeAddress (bench 0x01 0x03 0x00 0x00).pc) = some 0x01#8 ∧
      (bench 0x01 0x03 0x00 0x00).readByte .imem (operandAddress (bench 0x01 0x03 0x00 0x00).pc) = some 0x03#8 ∧
      decodeBytes 0x01#8 0x03#8 = .ok (.add 0x03#8) := by
  decide

/-- In bounds at the last byte, out of bounds at the size. -/
theorem witness_FetchReadsOpcodeAndAdvances :
    ((small .fetch 0x03 0x00 0x00).phase = .fetch ∧
        (small .fetch 0x03 0x00 0x00).pc.toNat < (small .fetch 0x03 0x00 0x00).cfg.imemSize) ∧
      ((small .fetch 0x04 0x00 0x00).phase = .fetch ∧
        (small .fetch 0x04 0x00 0x00).cfg.imemSize ≤ (small .fetch 0x04 0x00 0x00).pc.toNat) := by
  decide

/-- Out of bounds at the last byte; in bounds below it, with an invalid and with a valid opcode byte. -/
theorem witness_DecodeReadsOperandThenChecksOpcode :
    ((small .decode 0x05 0x03 0x12).phase = .decode ∧
        (small .decode 0x05 0x03 0x12).cfg.imemSize ≤ (small .decode 0x05 0x03 0x12).iaddr.toNat + 1) ∧
      ((small .decode 0x04 0x02 0x12).iaddr.toNat + 1 < (small .decode 0x04 0x02 0x12).cfg.imemSize ∧
        opcodeByteValid (small .decode 0x04 0x02 0x12).fl = false) ∧
      ((small .decode 0x04 0x02 0x11).iaddr.toNat + 1 < (small .decode 0x04 0x02 0x11).cfg.imemSize ∧
        opcodeByteValid (small .decode 0x04 0x02 0x11).fl = true) := by
  decide

theorem witness_CycleIsStepsOfItsPhases :
    (small .loaded 0x00 0x00 0x00).phase.isRunning = false ∧ (small .execute 0x00 0x00 0x00).phase = .execute ∧
      ((small .decode 0x04 0x02 0x11).phase = .decode ∧ (decodePhase (small .decode 0x04 0x02 0x11)).phase = .execute) ∧
      (decodePhase (small .decode 0x05 0x03 0x11)).phase ≠ .execute ∧
      ((small .fetch 0x04 0x00 0x00).phase = .fetch ∧ (fetchPhase (small .fetch 0x04 0x00 0x00)).phase ≠ .decode) ∧
      ((fetchPhase (small .fetch 0x03 0x00 0x00)).phase = .decode ∧
        (decodePhase (fetchPhase (small .fetch 0x03 0x00 0x00))).phase ≠ .execute) ∧
      ((fetchPhase (bench 0x01 0x03 0 0)).phase = .decode ∧
        (decodePhase (fetchPhase (bench 0x01 0x03 0 0))).phase = .execute) := by
  decide

/-- One state of each phase has a next state. -/
theorem witness_PhaseMovesOnlyAlongTable :
    nextIs (step { small .loaded 0 0 0 with commands := [.start] }) (fun t => decide (t.phase = .fetch)) = true ∧
      nextIs (step { small .halted 0 0 0 with commands := [.loadProgram [0x0E]] })
        (fun t => decide (t.phase = .loaded)) = true ∧
      nextIs (step (small .faulted 0 0 0)) (fun t => decide (t.phase = .faulted)) = true ∧
      nextIs (step (small .fetch 0x03 0 0)) (fun t => decide (t.phase = .decode)) = true ∧
      nextIs (step (small .decode 0x05 0x03 0x01)) (fun t => decide (t.phase = .faulted)) = true ∧
      nextIs (step { small .execute 0x02 0 0x0F with ir := ⟨true, 0x0F, 0⟩ })
        (fun t => decide (t.phase = .execute)) = true := by
  decide

/-- The data address at the last byte (15 of 16) and at the size (16): the two clauses of ADD, the first clause of SUB
and MUL, STA and LDA, and the out-of-bounds statements. -/
theorem witness_data_address_bounds :
    (0x0F#8).toNat < (bench 0x01 0x0F 0 0).cfg.dmemSize ∧ (bench 0x01 0x10 0 0).cfg.dmemSize ≤ (0x10#8).toNat := by
  decide

theorem witness_DivWritesQuotient :
    (0x03#8).toNat < (bench 0x04 0x03 0xC8 0x07).cfg.dmemSize ∧
      (bench 0x04 0x03 0xC8 0x07).dmem.get (0x03#8).toNat ≠ 0x00#8 := by
  decide

/-- A zero divisor at the last byte, and an operand at the size. -/
theorem witness_DivByZeroFaults :
    ((0x0F#8).toNat < (bench 0x04 0x0F 0xC8 0x07).cfg.dmemSize ∧
        (bench 0x04 0x0F 0xC8 0x07).dmem.get (0x0F#8).toNat = 0x00#8) ∧
      (bench 0x04 0x10 0xC8 0x07).cfg.dmemSize ≤ (0x10#8).toNat := by
  decide

theorem witness_DataAccessOutOfBoundsFaults :
    Instr.div 0x10#8 ∈ [Instr.add 0x10#8, Instr.sub 0x10#8, Instr.mul 0x10#8, Instr.div 0x10#8, Instr.sta 0x10#8,
        Instr.lda 0x10#8] ∧ (bench 0x04 0x10 0 0).cfg.dmemSize ≤ (0x10#8).toNat := by
  decide

theorem witness_LoadSeesLatestStore :
    (0x0F#8).toNat < (bench 0 0 0x44 0).cfg.dmemSize ∧
      nextIs (exec (.sta 0x0F) (bench 0 0 0x44 0)) (fun t => decide (t.dmem = [(15, 0x44)])) = true := by
  decide

theorem witness_JumpResolverWritesOperand :
    (Instr.jlt 0x20#8, JumpCond.lt) ∈ [(Instr.jmp 0x20#8, JumpCond.always), (Instr.jeq 0x20#8, JumpCond.zero),
      (Instr.jne 0x20#8, JumpCond.nonzero), (Instr.jgt 0x20#8, JumpCond.gt), (Instr.jlt 0x20#8, JumpCond.lt),
      (Instr.jz 0x20#8, JumpCond.zero), (Instr.jnz 0x20#8, JumpCond.nonzero)] := by
  decide

/-- JGT and JLT: both values of the parameter. -/
theorem witness_signedness_clauses :
    (bench 0x0A 0 0x80 0).cfg.accCmpSigned = false ∧ (benchSigned 0x0A 0 0x80).cfg.accCmpSigned = true := by
  decide

theorem witness_JumpOutsideImemFaultsAtFetch : (small .execute 0 0 0).cfg.imemSize ≤ (0x04#8).toNat := by decide

theorem witness_SingleHltHaltsInOneCycle :
    (bench 0x0E 0x00 0 0).phase = .fetch ∧ (bench 0x0E 0x00 0 0).pc.toNat + 1 < (bench 0x0E 0x00 0 0).cfg.imemSize ∧
      (bench 0x0E 0x00 0 0).imem.get (bench 0x0E 0x00 0 0).pc.toNat = 0x0E#8 := by
  decide

theorem witness_InpTakesSuppliedByte :
    ({ bench 0x0F 0 0 0 with inPort := [some 0x81] } : State).inPort = some 0x81#8 :: [] := by decide

theorem witness_OutSendsAcc : ({ bench 0x10 0 0 0 with outPort := [true] } : State).outPort = true :: [] := by decide

/-- A waiting INP and a waiting OUT, with no poll left and with one that does not answer. -/
theorem witness_PortWaitChangesNothingElse :
    (({ small .execute 0 0 0x0F with ir := ⟨true, 0x0F, 0⟩ } : State).inReq = true ∧
      ({ small .execute 0 0 0x0F with ir := ⟨true, 0x0F, 0⟩ } : State).inPort = []) ∧
    (({ small .execute 0 0 0x0F with ir := ⟨true, 0x0F, 0⟩, inPort := [none] } : State).inReq = true ∧
      ({ small .execute 0 0 0x0F with ir := ⟨true, 0x0F, 0⟩, inPort := [none] } : State).inPort = none :: []) ∧
    (({ small .execute 0 0 0x10 with ir := ⟨true, 0x10, 0⟩ } : State).outValid = true ∧
      ({ small .execute 0 0 0x10 with ir := ⟨true, 0x10, 0⟩ } : State).outPort = []) ∧
    (({ small .execute 0 0 0x10 with ir := ⟨true, 0x10, 0⟩, outPort := [false] } : State).outValid = true ∧
      ({ small .execute 0 0 0x10 with ir := ⟨true, 0x10, 0⟩, outPort := [false] } : State).outPort = false :: []) := by
  decide

/-- A step that moves no byte, one that moves an output byte, one that moves an input byte. -/
theorem witness_PortTransfersAreInOrder :
    nextIs (step (inExecute 0x07 0x40 0 0)) (fun t => decide (t.events = [])) = true ∧
      nextIs (step { inExecute 0x10 0 0x06 0 with outPort := [true] })
        (fun t => decide (t.events = [.output 0x06])) = true ∧
      nextIs (step { inExecute 0x0F 0 0 0 with inPort := [some 0x81] })
        (fun t => decide (t.events = [.input 0x81])) = true := by
  decide

/-- DECODE of DAT with its operand in bounds, and at the size. -/
theorem witness_DatDecodesLikeAnyInstruction :
    ((small .decode 0x04 0x02 0x11).phase = .decode ∧ (small .decode 0x04 0x02 0x11).fl = 0x11#8 ∧
        (small .decode 0x04 0x02 0x11).iaddr.toNat + 1 < (small .decode 0x04 0x02 0x11).cfg.imemSize) ∧
      ((small .decode 0x05 0x03 0x11).phase = .decode ∧ (small .decode 0x05 0x03 0x11).fl = 0x11#8 ∧
        (small .decode 0x05 0x03 0x11).cfg.imemSize ≤ (small .decode 0x05 0x03 0x11).iaddr.toNat + 1) := by
  decide

theorem witness_DatExecuteIsRefused :
    (bench 0x11 0x05 0 0).phase = .fetch ∧ (bench 0x11 0x05 0 0).pc.toNat + 1 < (bench 0x11 0x05 0 0).cfg.imemSize ∧
      (bench 0x11 0x05 0 0).imem.get (bench 0x11 0x05 0 0).pc.toNat = 0x11#8 := by
  decide

/-- ADD with a next state that completes, and one that faults. -/
theorem witness_AccumulatorInstructionsFrame :
    nextIs (exec (.add 0x0F) (bench 0 0 0x05 0)) (fun t => decide (t.phase = .fetch)) = true ∧
      nextIs (exec (.add 0x10) (bench 0 0 0x05 0)) (fun t => decide (t.phase = .faulted)) = true := by
  decide

theorem witness_StoreFrame :
    nextIs (exec (.sta 0x0F) (bench 0 0 0x05 0)) (fun t => decide (t.phase = .fetch)) = true ∧
      nextIs (exec (.sta 0x10) (bench 0 0 0x05 0)) (fun t => decide (t.phase = .faulted)) = true := by
  decide

theorem witness_JumpFrame :
    nextIs (exec (.jeq 0x40) (bench 0 0 0x00 0)) (fun t => decide (t.pc = 0x40)) = true ∧
      nextIs (exec (.jeq 0x40) (bench 0 0 0x01 0)) (fun t => decide (t.pc = 0x10)) = true := by
  decide

theorem witness_HaltAndPortFrame :
    nextIs (exec (.hlt 0x00) (bench 0 0 0 0)) (fun t => decide (t.phase = .halted)) = true ∧
      nextIs (exec (.inp 0x00) { bench 0 0 0 0 with inPort := [some 0x81] }) (fun t => decide (t.acc = 0x81)) = true ∧
      nextIs (exec (.out 0x00) { bench 0 0 0 0 with outPort := [true] }) (fun t => decide (t.outPort = [])) = true := by
  decide

/-- Byte and word accesses at the last byte and at the size, FETCH and DECODE at the size, a data operand at the size. -/
theorem witness_EveryAccessIsBoundsChecked :
    (small .loaded 0 0 0).size .dmem ≤ (16#32).toNat ∧ (15#32).toNat < (small .loaded 0 0 0).size .dmem ∧
      (small .loaded 0 0 0).size .dmem ≤ (15#32).toNat + 1 ∧ (14#32).toNat + 1 < (small .loaded 0 0 0).size .dmem ∧
      ((small .fetch 0x04 0 0).phase = .fetch ∧
        (small .fetch 0x04 0 0).cfg.imemSize ≤ (small .fetch 0x04 0 0).pc.toNat) ∧
      ((small .decode 0x05 0x03 0).phase = .decode ∧
        (small .decode 0x05 0x03 0).cfg.imemSize ≤ (small .decode 0x05 0x03 0).iaddr.toNat + 1) ∧
      (small .execute 0 0 0).cfg.dmemSize ≤ (0x10#8).toNat := by
  decide

/-- A write in bounds; steps that change DMEM and IMEM by STA, `load_data` and `load_program`. -/
theorem witness_MemoryChangesOnlyByItsWriters :
    ((small .loaded 0 0 0).writeByte .dmem 15#32 0x01#8).isSome = true ∧
      nextIs (step (inExecute 0x05 0x05 0x9A 0x00))
        (fun t => decide (t.dmem.get 5 ≠ (inExecute 0x05 0x05 0x9A 0x00).dmem.get 5)) = true ∧
      nextIs (step { small .loaded 0 0 0 with commands := [.loadData [0x05]] })
        (fun t => decide (t.dmem.get 0 ≠ (small .loaded 0 0 0).dmem.get 0)) = true ∧
      nextIs (step { small .loaded 0 0 0 with commands := [.loadProgram [0x0E]] })
        (fun t => decide (t.imem.get 0 ≠ (small .loaded 0 0 0).imem.get 0)) = true := by
  decide

theorem witness_NoInstructionWritesImem :
    nextIs (exec (.sta 0x05) (bench 0 0 0x9A 0)) (fun t => decide (t.dmem = [(5, 0x9A)])) = true ∧
      (bench 0x05 0x05 0x9A 0).phase.isRunning = true ∧
      nextIs (step { small .loaded 0 0 0 with commands := [.write .imem 3 0x0E] })
        (fun t => decide (t.imem ≠ (small .loaded 0 0 0).imem)) = true := by
  decide

theorem witness_AddressSpacesDoNotAlias :
    Space.imem ≠ Space.dmem ∧ ((small .loaded 0 0 0).writeByte .dmem 15#32 0x01#8).isSome = true := by decide

theorem witness_WordAccessIsBigEndian : (14#32).toNat + 1 < (small .loaded 0 0 0).size .dmem := by decide

/-- A FAULTED machine: reloaded, inspected, started again. -/
theorem witness_FaultedLastsUntilLoadProgram :
    (small .faulted 0 0 0).phase = .faulted ∧
      nextIs (step { small .faulted 0 0 0 with commands := [.loadProgram [0x0E, 0, 0, 0]] })
        (fun t => decide (t.phase ≠ .faulted)) = true ∧
      nextIs (step { small .faulted 0 0 0 with commands := [.getStatus] }) (fun t => decide (t.phase = .faulted)) = true ∧
      ({ small .faulted 0 0 0 with commands := [.start] } : State).commands = .start :: [] := by
  decide

theorem witness_FaultWrittenOnlyByFault :
    nextIs (step (inExecute 0x04 0x03 0 0)) (fun t => decide (t.fault ≠ (inExecute 0x04 0x03 0 0).fault)) = true ∧
      nextIs (step { small .faulted 0 0 0 with
          fault := ⟨.divisionByZero, .imem, 0, 0, 0x04, true, 0⟩, commands := [.loadProgram []] })
        (fun t => decide (t.fault = FaultRecord.clear)) = true := by
  decide

/-- A fault in each phase: opcode fetch, operand fetch, invalid opcode, data access, division. -/
theorem witness_FaultsArePrecise :
    nextIs (cycle (small .fetch 0x04 0 0)) (fun t => decide (t.phase = .faulted)) = true ∧
      nextIs (cycle (small .fetch 0x03 0 0)) (fun t => decide (t.phase = .faulted)) = true ∧
      nextIs (cycle (bench 0x12 0x34 0 0)) (fun t => decide (t.phase = .faulted)) = true ∧
      nextIs (cycle (bench 0x06 0x10 0 0)) (fun t => decide (t.phase = .faulted)) = true ∧
      nextIs (cycle (bench 0x04 0x03 0 0)) (fun t => decide (t.phase = .faulted)) = true := by
  decide

/-- The guards of the six clauses, at their boundaries: PC at the size, at the last byte, below it with an invalid
opcode, with a data operand at the size, with a zero divisor at the last byte, and with nothing wrong. -/
theorem witness_FirstFaultInPhaseOrderIsReported :
    (small .fetch 0x04 0 0).cfg.imemSize ≤ (small .fetch 0x04 0 0).pc.toNat ∧
      ((small .fetch 0x03 0 0).pc.toNat < (small .fetch 0x03 0 0).cfg.imemSize ∧
        (small .fetch 0x03 0 0).cfg.imemSize ≤ (small .fetch 0x03 0 0).pc.toNat + 1) ∧
      ((bench 0x12 0 0 0).pc.toNat + 1 < (bench 0x12 0 0 0).cfg.imemSize ∧
        opcodeByteValid ((bench 0x12 0 0 0).imem.get (bench 0x12 0 0 0).pc.toNat) = false) ∧
      (((bench 0x06 0x10 0 0).imem.get (bench 0x06 0x10 0 0).pc.toNat).toNat ≤ 0x06 ∧
        (bench 0x06 0x10 0 0).cfg.dmemSize ≤
          ((bench 0x06 0x10 0 0).imem.get ((bench 0x06 0x10 0 0).pc.toNat + 1)).toNat) ∧
      ((bench 0x04 0x0F 0 0).imem.get (bench 0x04 0x0F 0 0).pc.toNat = 0x04#8 ∧
        (bench 0x04 0x0F 0 0).dmem.get ((bench 0x04 0x0F 0 0).imem.get ((bench 0x04 0x0F 0 0).pc.toNat + 1)).toNat =
          0x00#8) ∧
      nextIs (cycle (bench 0x07 0xFF 0 0)) (fun t => decide (t.phase = .fetch)) = true := by
  decide

/-- The invariant has states in every phase that goes on: at power-on for legal parameters, and at FETCH. -/
theorem witness_Inv_of_fetch : (bench 0x01 0x03 0x05 0x07).Inv where
  cfg_wellFormed := by decide
  imem_wf := by decide
  dmem_wf := by decide
  imem_below := by decide
  dmem_below := by decide
  running_iff := by decide
  ir_wellFormed := by decide
  fault_wellFormed := by decide
  fault_iff := by decide
  fault_iaddr := by decide
  fault_opcode := by decide
  fault_addr := by decide
  pc_next := by decide
  ir_execute := by decide
  ir_halted := by decide

/-- That state steps, so StepKeepsInvariant has an instance. -/
theorem witness_StepKeepsInvariant :
    nextIs (step (bench 0x01 0x03 0x05 0x07)) (fun t => decide (t.phase = .decode)) = true := by decide

theorem witness_PowerOnMeetsInvariant : Config.wellFormed ⟨1, 1, true⟩ = true := by decide

theorem witness_ControlSignalsAgreeWithInstructionRules :
    controlSignals (Instr.div 0x03#8).opcode = some (ControlSignals.arithmetic .div) ∧
      controlSignals (Instr.dat 0x03#8).opcode = none := by
  decide

theorem witness_ExecuteTouchesOnlyGrantedByte :
    executeAccess (.add 0x03#8) ≠ some (.dmemRead 4#32) ∧ executeAccess (.add 0x03#8) ≠ some (.dmemWrite 4#32) ∧
      nextIs (exec (.add 0x03) (bench 0 0 0x05 0x07)) (fun t => decide (t.acc = 0x0C)) = true := by
  decide

theorem witness_LatchesAreHiddenFromPrograms :
    (bench 0x07 0x40 0 0).phase = .fetch ∧ nextIs (cycle (bench 0x07 0x40 0 0)) (fun t => decide (t.phase ≠ .faulted)) = true := by
  decide

theorem witness_HostOperationsWaitWhileRunning :
    (bench 0x07 0x40 0 0).phase.isRunning = true ∧
      nextIs (step { bench 0x07 0x40 0 0 with commands := [.start] }) (fun t => decide (t.commands = [.start])) = true := by
  decide

/-- An image of exactly the memory's size, and one a byte longer. -/
theorem witness_LoadProgramFillsImem :
    ({ small .halted 0 0 0 with commands := [.loadProgram [1, 2, 3, 4]] } : State).phase.isRunning = false ∧
      ([1, 2, 3, 4] : List Byte).length ≤ (small .halted 0 0 0).cfg.imemSize ∧
      (small .halted 0 0 0).cfg.imemSize < ([1, 2, 3, 4, 5] : List Byte).length := by
  decide

theorem witness_LoadDataFillsDmem :
    ({ small .loaded 0 0 0 with commands := [.loadData [1]] } : State).phase.isRunning = false ∧
      (List.replicate 16 (1 : Byte)).length ≤ (small .loaded 0 0 0).cfg.dmemSize ∧
      (small .loaded 0 0 0).cfg.dmemSize < (List.replicate 17 (1 : Byte)).length := by
  decide

theorem witness_StartRunsALoadedMachine :
    ({ small .loaded 0 0 0 with commands := [.start] } : State).commands = .start :: [] ∧
      (small .loaded 0 0 0).phase = .loaded ∧ (small .halted 0 0 0).phase = .halted ∧
      (small .faulted 0 0 0).phase = .faulted := by
  decide

/-- A stopped machine with each of the operations next, the byte accesses at the last byte. -/
theorem witness_HostInspectsAStoppedMachine :
    (∀ c ∈ [HostCommand.getRegister .pc, .getRegister .acc, .getRegister .fl, .getRegister .iaddr, .getInstruction,
        .getStatus, .setPc 0x01, .setAcc 0x01, .read .dmem 15, .write .dmem 15 0x01, .readWord .dmem 14,
        .writeWord .dmem 14 0x0102],
      ({ small .halted 0 0 0 with commands := [c] } : State).commands = c :: [] ∧
        ({ small .halted 0 0 0 with commands := [c] } : State).phase.isRunning = false) ∧
      (15#32).toNat < (small .halted 0 0 0).size .dmem ∧ (small .halted 0 0 0).ir.valid = false ∧
      ({ small .halted 0 0 0 with ir := ⟨true, 0x0E, 0x00⟩ } : State).ir =
        { valid := true, op := (Instr.hlt 0x00).opcode.byte, operand := (Instr.hlt 0x00).operand } ∧
      ((small .halted 0 0 0).readWord .dmem 14).isSome = true ∧
      ((small .halted 0 0 0).writeWord .dmem 14 0x0102).isSome = true := by
  decide

theorem witness_StoppedStatesKeepEverything :
    (small .halted 0 0 0).phase.isRunning = false ∧ (small .halted 0 0 0).commands = [] := by decide

theorem witness_WithFetchWordRunsTheWord :
    State.reset.pc.toNat + 1 < State.reset.cfg.imemSize ∧ decodeTableWord 16 0x0103 = some (.add 0x03#8) := by decide

end Sys2Proof.Tests
end

section
/-! Proofs of the statements about memory (spec/20_memory.md): the bounds of every access (R53), IMEM's writers (R65)
and the separation of the two address spaces (R50). -/

namespace Sys2Proof.Machine

/-! ### Accesses at the bounds (R53) -/

theorem State.readWord_eq_none {s : State} {sp : Space} {a : Addr} :
    s.readWord sp a = none ↔ s.size sp ≤ a.toNat + 1 := by
  rw [State.readWord_eq]
  split <;> simp_all

theorem State.writeWord_eq_none {s : State} {sp : Space} {a : Addr} {w : HalfWord} :
    s.writeWord sp a w = none ↔ s.size sp ≤ a.toNat + 1 := by
  rw [State.writeWord_eq]
  split <;> simp_all

/-- A byte access of the host out of bounds: the reply, and nothing else. -/
theorem State.hostCommand_byte_outOfBounds {s : State} {sp : Space} {a : Addr} (v : Byte)
    (h : s.size sp ≤ a.toNat) :
    s.hostCommand (.read sp a) = s.reply (.outOfBounds sp a) ∧
      s.hostCommand (.write sp a v) = s.reply (.outOfBounds sp a) := by
  simp [State.hostCommand, State.readByte_eq_none.mpr h, State.writeByte_eq_none.mpr h, readReply, State.hostWrite]

/-- A word access of the host out of bounds: the reply, and nothing else. -/
theorem State.hostCommand_word_outOfBounds {s : State} {sp : Space} {a : Addr} (w : HalfWord)
    (h : s.size sp ≤ a.toNat + 1) :
    s.hostCommand (.readWord sp a) = s.reply (.outOfBounds sp a) ∧
      s.hostCommand (.writeWord sp a w) = s.reply (.outOfBounds sp a) := by
  simp [State.hostCommand, State.readWord_eq_none.mpr h, State.writeWord_eq_none.mpr h, readWordReply,
    State.hostWrite]

theorem fetchPhase_of_outOfBounds {s : State} (h : s.cfg.imemSize ≤ s.pc.toNat) :
    fetchPhase s = ({ s with iaddr := s.pc } : State).raise .outOfBounds .imem (zext32 s.pc) 0x00#8 none := by
  rcases fetchPhase_cases s with ⟨-, e⟩ | ⟨hb, -⟩
  · exact e
  · omega

theorem decodePhase_of_outOfBounds {s : State} (h : s.cfg.imemSize ≤ s.iaddr.toNat + 1) :
    decodePhase s = s.raise .outOfBounds .imem (operandAddress s.iaddr) s.fl none := by
  rcases decodePhase_cases s with ⟨-, e⟩ | ⟨hb, -⟩ | ⟨hb, -⟩
  · exact e
  all_goals omega

theorem executeAlu_of_outOfBounds {s : State} {a : Byte} (op : AluOp) (opc : Byte) (h : s.cfg.dmemSize ≤ a.toNat) :
    executeAlu op opc a s = s.raise .outOfBounds .dmem (zext32 a) opc (some a) := by
  rcases executeAlu_cases op opc a s with ⟨-, e⟩ | ⟨hb, -⟩
  · exact e
  · omega

theorem execDiv_of_outOfBounds {s : State} {a : Byte} (h : s.cfg.dmemSize ≤ a.toNat) :
    execDiv a s = .next (s.raise .outOfBounds .dmem (zext32 a) Opcode.div.byte (some a)) := by
  rcases execDiv_cases a s with ⟨-, e⟩ | ⟨hb, -⟩ | ⟨hb, -⟩
  · exact e
  all_goals omega

theorem execSta_of_outOfBounds {s : State} {a : Byte} (h : s.cfg.dmemSize ≤ a.toNat) :
    execSta a s = .next (s.raise .outOfBounds .dmem (zext32 a) Opcode.sta.byte (some a)) := by
  rcases execSta_cases a s with ⟨-, e⟩ | ⟨hb, -⟩
  · exact e
  · omega

theorem execLda_of_outOfBounds {s : State} {a : Byte} (h : s.cfg.dmemSize ≤ a.toNat) :
    execLda a s = .next (s.raise .outOfBounds .dmem (zext32 a) Opcode.lda.byte (some a)) := by
  rcases execLda_cases a s with ⟨-, e⟩ | ⟨hb, -⟩
  · exact e
  · omega

/-- R230's data row, for the six instructions that access DMEM. -/
theorem exec_data_outOfBounds {s : State} {i : Instr} {a : Byte}
    (hi : i ∈ [Instr.add a, Instr.sub a, Instr.mul a, Instr.div a, Instr.sta a, Instr.lda a])
    (h : s.cfg.dmemSize ≤ a.toNat) :
    exec i s = .next (s.raise .outOfBounds .dmem (zext32 a) i.opcode.byte (some a)) := by
  simp only [List.mem_cons, List.not_mem_nil, or_false] at hi
  rcases hi with rfl | rfl | rfl | rfl | rfl | rfl
  · exact congrArg Host.Outcome.next (executeAlu_of_outOfBounds .add _ h)
  · exact congrArg Host.Outcome.next (executeAlu_of_outOfBounds .sub _ h)
  · exact congrArg Host.Outcome.next (executeAlu_of_outOfBounds .mul _ h)
  · exact execDiv_of_outOfBounds h
  · exact execSta_of_outOfBounds h
  · exact execLda_of_outOfBounds h

/-! ### The writers of IMEM (R65) -/

theorem Effect.imem_eq {i : Instr} {s t : State} (h : Effect i s t) : t.imem = s.imem := by
  cases h <;> rfl

theorem exec_imem {i : Instr} {s t : State} (h : exec i s = .next t) : t.imem = s.imem := (exec_effect h).imem_eq

@[simp] theorem fetchPhase_imem (s : State) : (fetchPhase s).imem = s.imem := by
  rcases fetchPhase_cases s with ⟨-, e⟩ | ⟨-, e⟩ <;> simp [e]

@[simp] theorem decodePhase_imem (s : State) : (decodePhase s).imem = s.imem := by
  rcases decodePhase_cases s with ⟨-, e⟩ | ⟨-, -, e⟩ | ⟨-, -, e⟩ <;> simp [e]

theorem step_running_imem {s t : State} (hr : s.phase.isRunning = true) (h : step s = .next t) : t.imem = s.imem := by
  rcases step_running_cases hr h with ⟨-, rfl⟩ | ⟨-, rfl⟩ | ⟨-, i, -, he⟩
  · exact fetchPhase_imem s
  · exact decodePhase_imem s
  · exact exec_imem he

/-- A host operation that changes IMEM is `load_program` or a write to IMEM. -/
theorem State.hostCommand_imem_writer {s : State} {c : HostCommand} (h : (s.hostCommand c).imem ≠ s.imem) :
    (∃ image, c = .loadProgram image) ∨ (∃ a v, c = .write .imem a v) ∨ (∃ a v, c = .writeWord .imem a v) := by
  cases c with
  | loadProgram image => exact .inl ⟨image, rfl⟩
  | write sp a v =>
    cases sp with
    | imem => exact .inr (.inl ⟨a, v, rfl⟩)
    | dmem =>
      refine absurd ?_ h
      rw [State.hostCommand, State.writeByte_eq]
      split <;> simp [State.hostWrite]
  | writeWord sp a w =>
    cases sp with
    | imem => exact .inr (.inr ⟨a, w, rfl⟩)
    | dmem =>
      refine absurd ?_ h
      rw [State.hostCommand, State.writeWord_eq]
      split <;> simp [State.hostWrite]
  | loadData image =>
    refine absurd ?_ h
    rw [State.hostCommand, State.loadData]
    split <;> simp
  | start =>
    refine absurd ?_ h
    rw [State.hostCommand, State.start]
    split <;> simp
  | getRegister | setPc | setAcc | getInstruction | getStatus | read | readWord =>
    exact absurd (by simp [State.hostCommand]) h

/-- A host move that changes IMEM takes an operation that writes it. -/
theorem State.hostMove_imem_writer {s : State} (h : s.hostMove.imem ≠ s.imem) :
    ∃ c rest, s.commands = c :: rest ∧
      ((∃ image, c = .loadProgram image) ∨ (∃ a v, c = .write .imem a v) ∨ (∃ a v, c = .writeWord .imem a v)) := by
  cases hc : s.commands with
  | nil => exact absurd (congrArg State.imem (State.hostMove_nil hc)) h
  | cons c rest =>
    rw [State.hostMove_cons hc] at h
    exact ⟨c, rest, rfl, State.hostCommand_imem_writer h⟩

/-! ### The address spaces (R50) -/

theorem State.readByte_writeByte_of_ne {s t : State} {sp sp' : Space} {a : Addr} {v : Byte} (hne : sp' ≠ sp)
    (h : s.writeByte sp a v = some t) (b : Addr) : t.readByte sp' b = s.readByte sp' b := by
  obtain ⟨-, rfl⟩ := State.writeByte_eq_some.mp h
  exact State.readByte_congr (State.setMem_mem_of_ne s sp sp' _ hne) (State.setMem_cfg s sp _) b

end Sys2Proof.Machine

namespace Sys2Proof.Proofs

open Sys2Proof.Machine

/-- Settles O40: a byte read sees only its own space's memory and the parameters, and a write to the other space keeps
both. -/
theorem addressSpacesDoNotAlias : Obligations.AddressSpacesDoNotAlias :=
  fun _ _ _ _ _ b _ hne h => State.readByte_writeByte_of_ne hne h b

/-- Settles O39: no case of `Effect` and no phase touches IMEM, so a step that changes it is a host move. -/
theorem noInstructionWritesImem : Obligations.NoInstructionWritesImem := by
  refine ⟨fun _ _ _ => exec_imem, fun _ _ => step_running_imem, fun s t h hne => ?_⟩
  cases hr : s.phase.isRunning with
  | true => exact absurd (step_running_imem hr h) hne
  | false =>
    cases (step_of_stopped hr).symm.trans h
    exact ⟨rfl, State.hostMove_imem_writer hne⟩

/-- Settles O37: the primitives and the host's replies by the guard of each access; for the core, the out-of-bounds case
of FETCH, of DECODE and of the six data instructions is a `raise`, whose fields are known. -/
theorem everyAccessIsBoundsChecked : Obligations.EveryAccessIsBoundsChecked := by
  intro s sp a v w
  refine ⟨fun h => ?byteOut, fun h => ?byteIn, fun h => ?wordOut, fun h => ?wordIn, fun hp h => ?fetch,
    fun hp h => ?decode, fun i hi h => ?data⟩
  case byteOut =>
    exact ⟨State.readByte_eq_none.mpr h, State.writeByte_eq_none.mpr h, State.hostCommand_byte_outOfBounds v h⟩
  case byteIn => simp [State.readByte_eq, State.writeByte_eq, h]
  case wordOut =>
    exact ⟨State.readWord_eq_none.mpr h, State.writeWord_eq_none.mpr h, State.hostCommand_word_outOfBounds w h⟩
  case wordIn => simp [State.readWord_eq, State.writeWord_eq, h]
  case fetch =>
    refine ⟨_, step_of_fetch hp, ?_⟩
    simp [fetchPhase_of_outOfBounds h, zext32_eq_ofNat]
  case decode =>
    refine ⟨_, step_of_decode hp, ?_⟩
    simp [decodePhase_of_outOfBounds h, operandAddress_eq_ofNat]
  case data =>
    refine ⟨_, exec_data_outOfBounds hi h, ?_⟩
    simp [zext32_eq_ofNat]

end Sys2Proof.Proofs
end

section
/-! Proofs of the statements about the encoding (spec/30_encoding.md): the opcode map (R87) and the bytes that spell no
instruction (R85). -/

namespace Sys2Proof

/-! ### The valid opcode bytes (R82, R85) -/

theorem opcodeByteValid_eq_true {b : Byte} : opcodeByteValid b = true ↔ 0x01 ≤ b.toNat ∧ b.toNat ≤ 0x11 := by
  simp [opcodeByteValid]

theorem opcodeByteValid_eq_false {b : Byte} : opcodeByteValid b = false ↔ b = 0x00#8 ∨ 0x12 ≤ b.toNat := by
  have hzero : b = 0x00#8 ↔ b.toNat = 0 := BitVec.toNat_inj.symm
  rw [← Bool.not_eq_true, opcodeByteValid_eq_true, hzero]
  omega

theorem opcodeByteValid_ofNat {n : Nat} (h : n < 256) :
    opcodeByteValid (BitVec.ofNat 8 n) = true ↔ 0x01 ≤ n ∧ n ≤ 0x11 := by
  rw [opcodeByteValid_eq_true, BitVec.toNat_ofNat, Nat.mod_eq_of_lt h]

/-- R85's list: of 0x00, the 17 opcode bytes and the 238 values from 0x12 on, the filter keeps the first and the last
part. -/
theorem filter_invalid_opcode_bytes :
    (List.range 256).filter (fun n => !opcodeByteValid (BitVec.ofNat 8 n)) = 0x00 :: List.range' 0x12 238 := by
  have hsplit : List.range 256 = 0x00 :: (List.range' 0x01 17 ++ List.range' 0x12 238) := by
    rw [List.range_eq_range', List.range'_append_1]
    exact List.range'_succ
  have hvalid : ∀ n ∈ List.range' 0x01 17, ¬ (!opcodeByteValid (BitVec.ofNat 8 n)) = true := by
    intro n hn
    rw [List.mem_range'_1] at hn
    rw [Bool.not_eq_true', Bool.not_eq_false, opcodeByteValid_ofNat (by omega)]
    omega
  have hinvalid : ∀ n ∈ List.range' 0x12 238, (!opcodeByteValid (BitVec.ofNat 8 n)) = true := by
    intro n hn
    rw [List.mem_range'_1] at hn
    rw [Bool.not_eq_true', ← Bool.not_eq_true, opcodeByteValid_ofNat (by omega)]
    omega
  rw [hsplit, List.filter_cons_of_pos (by decide), List.filter_append, List.filter_eq_nil_iff.mpr hvalid,
    List.filter_eq_self.mpr hinvalid, List.nil_append]

/-! ### The decoder's two verdicts (R87) -/

theorem decodeOpcode_of_valid {b : Byte} (h : opcodeByteValid b = true) :
    ∃ o : Opcode, decodeOpcode b = .ok o ∧ o.byte = b := by
  rcases decodeOpcode_cases b with ⟨o, ho, hb, -⟩ | ⟨-, hv⟩
  · exact ⟨o, ho, hb⟩
  · simp [hv] at h

theorem decodeOpcode_of_invalid {b : Byte} (h : opcodeByteValid b = false) :
    decodeOpcode b = .error (.invalidOpcode b) := by
  rcases decodeOpcode_cases b with ⟨-, -, -, hv⟩ | ⟨he, -⟩
  · simp [hv] at h
  · exact he

/-- The operand byte has no part in the verdict. -/
theorem decodeBytes_eq_invalidOpcode {b c : Byte} :
    decodeBytes b c = .error (.invalidOpcode b) ↔ opcodeByteValid b = false := by
  rcases decodeBytes_cases b c with ⟨o, hd, -, hv⟩ | ⟨hd, hv⟩ <;> simp [hd, hv]

end Sys2Proof

namespace Sys2Proof.Machine

/-- R85 at DECODE: the fault, with IR emptied and the operand byte reported. -/
theorem decodePhase_of_invalid {s : State} (hb : s.iaddr.toNat + 1 < s.cfg.imemSize)
    (hv : opcodeByteValid s.fl = false) :
    decodePhase s = ({ s with ir := InstrReg.empty } : State).raise .invalidOpcode .imem 0#32 s.fl
      (some (s.imem.get (s.iaddr.toNat + 1))) := by
  rcases decodePhase_cases s with ⟨ho, -⟩ | ⟨-, -, e⟩ | ⟨-, hv', -⟩
  · omega
  · exact e
  · simp [hv] at hv'

end Sys2Proof.Machine

namespace Sys2Proof.Proofs

open Sys2Proof.Machine

/-- Settles O2: each opcode's byte decodes to it, and the range 0x01 to 0x11 is where the decoder answers an opcode. -/
theorem opcodeMapMutualInverse : Obligations.OpcodeMapMutualInverse := by
  refine ⟨decodeOpcode_byte, fun b hlo hhi => ?valid, fun b h => ?invalid⟩
  case valid => exact decodeOpcode_of_valid (opcodeByteValid_eq_true.mpr ⟨hlo, hhi⟩)
  case invalid =>
    exact decodeOpcode_of_invalid (Bool.eq_false_iff.mpr fun hv => h (opcodeByteValid_eq_true.mp hv))

/-- Settles O3: the three clauses speak of the same bytes, those where `opcodeByteValid` is false; the count is the
length of their list, and the step in DECODE is a `raise`. -/
theorem invalidOpcodeBytesRaise : Obligations.InvalidOpcodeBytesRaise := by
  refine ⟨fun b c => ?decoder, ?count, fun s hp hb hfl => ?step⟩
  case decoder => exact decodeBytes_eq_invalidOpcode.trans opcodeByteValid_eq_false
  case count => rw [filter_invalid_opcode_bytes, List.length_cons, List.length_range']
  case step =>
    refine ⟨_, step_of_decode hp, ?_⟩
    simp [decodePhase_of_invalid hb (opcodeByteValid_eq_false.mpr hfl)]

end Sys2Proof.Proofs
end

section
/-! Proof of the statement about ADD (spec/41_arithmetic.md R151). -/

namespace Sys2Proof.Machine

/-- The in-bounds case of what ADD, SUB and MUL share: ACC takes the ALU's byte and the cycle ends. -/
theorem executeAlu_of_inBounds {s : State} {a : Byte} (op : AluOp) (opc : Byte) (h : a.toNat < s.cfg.dmemSize) :
    executeAlu op opc a s = { s with acc := alu op s.acc (s.dmem.get a.toNat), phase := .fetch } := by
  rcases executeAlu_cases op opc a s with ⟨ho, -⟩ | ⟨-, e⟩
  · omega
  · exact e

end Sys2Proof.Machine

namespace Sys2Proof.Proofs

open Sys2Proof.Machine

/-- Settles O10: the decoder's law at the byte of ADD, then the two cases of `executeAlu`; the out-of-bounds one is a
`raise`, whose fields are known. -/
theorem addWritesWrappedSum : Obligations.AddWritesWrappedSum := by
  refine fun a s => ⟨decodeBytes_byte .add a, fun h => ?inBounds, fun h => ?outOfBounds⟩
  case inBounds => exact congrArg Host.Outcome.next (executeAlu_of_inBounds .add _ h)
  case outOfBounds =>
    refine ⟨_, exec_data_outOfBounds List.mem_cons_self h, ?_⟩
    simp [zext32_eq_ofNat]

end Sys2Proof.Proofs
end

section
/-! Proof of the statement about the jump target resolver (spec/43_jumps.md R180). -/

namespace Sys2Proof.Machine

/-- The condition each jump hands to the resolver (the jump column of spec/30_encoding.md R88). -/
theorem exec_jump_eq_resolve {a : Byte} {i : Instr} {c : JumpCond}
    (h : (i, c) ∈ [(Instr.jmp a, JumpCond.always), (Instr.jeq a, JumpCond.zero), (Instr.jne a, JumpCond.nonzero),
      (Instr.jgt a, JumpCond.gt), (Instr.jlt a, JumpCond.lt), (Instr.jz a, JumpCond.zero),
      (Instr.jnz a, JumpCond.nonzero)]) (s : State) :
    exec i s = .next (resolve c a s) := by
  simp only [List.mem_cons, List.not_mem_nil, or_false, Prod.mk.injEq] at h
  rcases h with ⟨rfl, rfl⟩ | ⟨rfl, rfl⟩ | ⟨rfl, rfl⟩ | ⟨rfl, rfl⟩ | ⟨rfl, rfl⟩ | ⟨rfl, rfl⟩ | ⟨rfl, rfl⟩
  all_goals rfl

end Sys2Proof.Machine

namespace Sys2Proof.Proofs

open Sys2Proof.Machine

/-- Settles O20: every jump is the resolver under its own condition, and the resolver writes PC and PHASE alone. -/
theorem jumpResolverWritesOperand : Obligations.JumpResolverWritesOperand :=
  fun a s _ c h => (exec_jump_eq_resolve h s).trans (congrArg Host.Outcome.next (resolve_eq c a s))

end Sys2Proof.Proofs
end

section
/-! Proof of the statement about decoding DAT (spec/45_dat.md R220). -/

namespace Sys2Proof

/-- R82: the byte of every opcode is a valid opcode byte. -/
theorem opcodeByteValid_byte (o : Opcode) : opcodeByteValid o.byte = true := by cases o <;> rfl

end Sys2Proof

namespace Sys2Proof.Machine

/-- DECODE with its operand byte in bounds and a valid opcode byte in FL: IR takes the two bytes and EXECUTE is next. -/
theorem decodePhase_of_valid {s : State} (hb : s.iaddr.toNat + 1 < s.cfg.imemSize)
    (hv : opcodeByteValid s.fl = true) :
    decodePhase s = { s with
      ir := { valid := true, op := s.fl, operand := s.imem.get (s.iaddr.toNat + 1) }, phase := .execute } := by
  rcases decodePhase_cases s with ⟨ho, -⟩ | ⟨-, hv', -⟩ | ⟨-, -, e⟩
  · omega
  · simp [hv] at hv'
  · exact e

end Sys2Proof.Machine

namespace Sys2Proof.Proofs

open Sys2Proof.Machine

/-- Settles O31: 0x11 is the byte of DAT, so the decoder's law and DECODE's case for a valid opcode byte apply to it as
to any other; out of bounds, DECODE is a `raise`, whose fields are known. -/
theorem datDecodesLikeAnyInstruction : Obligations.DatDecodesLikeAnyInstruction := by
  refine fun s hp hfl => ⟨fun hb => ⟨decodeBytes_byte .dat _, ?inBounds⟩, fun h => ?outOfBounds⟩
  case inBounds =>
    have hv : opcodeByteValid s.fl = true := hfl ▸ opcodeByteValid_byte .dat
    rw [step_of_decode hp, decodePhase_of_valid hb hv, hfl]
  case outOfBounds =>
    refine ⟨_, step_of_decode hp, ?_⟩
    simp [decodePhase_of_outOfBounds h]

end Sys2Proof.Proofs
end

section
/-! Proofs of the statements about the decoder and the encoder (spec/30_encoding.md R80 to R86). -/

namespace Sys2Proof

/-- R82: an opcode is known from its byte, because the decoder reads it back. -/
theorem Opcode.byte_injective {o p : Opcode} (h : o.byte = p.byte) : o = p :=
  Except.ok.inj ((decodeOpcode_byte o).symm.trans ((congrArg decodeOpcode h).trans (decodeOpcode_byte p)))

/-- R86: no operand value is reserved. -/
theorem Instr.wellFormed_eq_true (i : Instr) : i.wellFormed = true := by cases i <;> rfl

/-- An opcode's byte is the first byte of its own instructions alone. -/
theorem Instr.opcode_byte_eq {i : Instr} {o : Opcode} : i.opcode.byte = o.byte ↔ i = o.withOperand i.operand := by
  constructor
  · intro h
    exact i.opcode_withOperand.symm.trans (congrArg (·.withOperand i.operand) (Opcode.byte_injective h))
  · intro h
    rw [h, Opcode.withOperand_opcode]

/-- Two bytes decode to an instruction exactly when they are its opcode byte and its operand byte. -/
theorem decodeBytes_eq_ok {b x : Byte} {i : Instr} :
    decodeBytes b x = .ok i ↔ b = i.opcode.byte ∧ x = i.operand := by
  constructor
  · intro h
    rcases decodeBytes_cases b x with ⟨o, e, hb, -⟩ | ⟨e, -⟩
    · cases e.symm.trans h
      simp [hb]
    · cases e.symm.trans h
  · rintro ⟨rfl, rfl⟩
    rw [decodeBytes_byte, Instr.opcode_withOperand]

/-- R81: the decoder takes two bytes and leaves the others. -/
theorem decode_eq_ok {bytes rest : List Byte} {i : Instr} :
    decode bytes = .ok (i, rest) ↔ ∃ b x, bytes = b :: x :: rest ∧ decodeBytes b x = .ok i := by
  match bytes with
  | [] => simp [decode]
  | [_] => simp [decode]
  | b :: x :: tail => cases h : decodeBytes b x <;> simp [decode, h, and_comm]

end Sys2Proof

namespace Sys2Proof.Proofs

/-- Settles O1: `decode` takes off two bytes, and `decodeBytes` answers on the two bytes of `encode` alone. -/
theorem decodeIffEncoded : Obligations.DecodeIffEncoded := by
  intro bytes i rest
  rw [decode_eq_ok]
  constructor
  · rintro ⟨b, x, rfl, h⟩
    obtain ⟨rfl, rfl⟩ := decodeBytes_eq_ok.mp h
    exact ⟨i.wellFormed_eq_true, rfl⟩
  · rintro ⟨-, rfl⟩
    exact ⟨_, _, rfl, decodeBytes_eq_ok.mpr ⟨rfl, rfl⟩⟩

/-- Settles O4: each first byte is the byte of its opcode. -/
theorem writtenWordsDecode : Obligations.WrittenWordsDecode :=
  ⟨decodeBytes_byte .add _, decodeBytes_byte .lda _, decodeBytes_byte .jlt _, decodeBytes_byte .hlt _,
    decodeBytes_byte .dat _⟩

end Sys2Proof.Proofs
end

section
/-! Proofs of the statements about the machine's invariant (`State.Inv`): power-on meets it, every step keeps it, and
from it every step but EXECUTE of DAT has a next state. -/

namespace Sys2Proof.Machine

/-! ### The operations that keep the invariant -/

theorem Memory.nil_wf : Memory.wf [] := ⟨List.Pairwise.nil, by simp⟩

theorem FaultRecord.clear_wellFormed : FaultRecord.clear.wellFormed = true := rfl

/-- R232 keeps the invariant when the report is one of R230's rows. -/
theorem State.Inv.raise {s : State} (h : s.Inv) {k : FaultKind} {sp : Space} {a : Addr} {op : Byte} {x : Option Byte}
    (hk : k ≠ .noFault) (hw : (s.raise k sp a op x).fault.wellFormed = true)
    (hop : op = s.fl ∨ op = 0x00#8 ∧ x.isSome = false) (ha : k = .outOfBounds → s.size sp ≤ a.toNat) :
    (s.raise k sp a op x).Inv :=
  { h with
    running_iff := rfl
    fault_wellFormed := hw
    fault_iff := ⟨fun _ => rfl, fun _ => hk⟩
    fault_iaddr := fun _ => rfl
    fault_opcode := fun _ => hop
    fault_addr := ha
    pc_next := by simp
    ir_execute := by simp
    ir_halted := by simp }

/-- Outside FAULTED the report is the cleared one. -/
theorem State.Inv.fault_kind {s : State} (h : s.Inv) (hp : s.phase ≠ .faulted) : s.fault.kind = .noFault := by
  by_contra hk
  exact hp (h.fault_iff.mp hk)

/-- A phase change without a fault, from a phase that is not FAULTED. -/
theorem State.Inv.setControl {s : State} (h : s.Inv) {p : Phase} (hs : s.phase ≠ .faulted) (hp : p ≠ .faulted)
    (hpc : p = .decode ∨ p = .execute → s.pc = nextPc s.iaddr)
    (hx : p = .execute → s.ir.valid = true ∧ s.ir.op = s.fl)
    (hh : p = .halted → s.ir.valid = true ∧ s.ir.op = Opcode.hlt.byte) : (s.setControl p.isRunning p).Inv :=
  { h with
    running_iff := rfl
    fault_iff := ⟨fun hk => absurd (h.fault_kind hs) hk, fun e => absurd e hp⟩
    fault_iaddr := fun e => absurd e hp
    fault_opcode := fun e => absurd e hp
    pc_next := hpc
    ir_execute := hx
    ir_halted := hh }

/-- Going to FETCH or LOADED asks nothing of the registers. -/
theorem State.Inv.setControl_fetch {s : State} (h : s.Inv) (hs : s.phase ≠ .faulted) : (s.setControl true .fetch).Inv :=
  h.setControl (p := .fetch) hs (by simp) (by simp) (by simp) (by simp)

/-- ACC, the port lists and the histories have no part in the invariant. -/
theorem State.Inv.of_same {s t : State} (h : s.Inv)
    (e : t = { s with acc := t.acc, commands := t.commands, inPort := t.inPort, outPort := t.outPort,
                      events := t.events, replies := t.replies }) : t.Inv := by
  rw [e]
  exact { h with }

theorem State.Inv.setMem {s : State} (h : s.Inv) {sp : Space} {m : Memory} (hw : m.wf) (hb : m.below (s.size sp)) :
    (s.setMem sp m).Inv := by
  cases sp with
  | imem => exact { h with imem_wf := hw, imem_below := hb }
  | dmem => exact { h with dmem_wf := hw, dmem_below := hb }

theorem State.Inv.mem_wf {s : State} (h : s.Inv) (sp : Space) : (s.mem sp).wf := by
  cases sp
  · exact h.imem_wf
  · exact h.dmem_wf

theorem State.Inv.mem_below {s : State} (h : s.Inv) (sp : Space) : (s.mem sp).below (s.size sp) := by
  cases sp
  · exact h.imem_below
  · exact h.dmem_below

/-- A byte stored inside a memory. -/
theorem State.Inv.setMem_set {s : State} (h : s.Inv) {sp : Space} {a : Nat} (ha : a < s.size sp) (v : Byte) :
    (s.setMem sp ((s.mem sp).set a v)).Inv :=
  h.setMem (Memory.set_wf (h.mem_wf sp) a v) (Memory.set_below (h.mem_below sp) ha v)

/-! ### The phases -/

theorem fetchPhase_inv {s : State} (h : s.Inv) (hp : s.phase = .fetch) : (fetchPhase s).Inv := by
  have hk := h.fault_kind (by simp [hp])
  have hi : ({ s with iaddr := s.pc } : State).Inv :=
    { h with
      fault_iaddr := by simp [hp]
      pc_next := by simp [hp] }
  rcases fetchPhase_cases s with ⟨hb, e⟩ | ⟨hb, e⟩ <;> rw [e]
  · exact hi.raise (by simp) (by simp [FaultRecord.wellFormed]) (.inr ⟨rfl, rfl⟩) (fun _ => by simpa using hb)
  · exact
      { h with
        running_iff := by simpa [hp, Phase.isRunning] using h.running_iff
        fault_iff := by simp [hk]
        fault_iaddr := by simp
        fault_opcode := by simp
        pc_next := fun _ => rfl
        ir_execute := by simp
        ir_halted := by simp }

theorem decodePhase_inv {s : State} (h : s.Inv) (hp : s.phase = .decode) : (decodePhase s).Inv := by
  have hk := h.fault_kind (by simp [hp])
  have hi : ({ s with ir := InstrReg.empty } : State).Inv :=
    { h with
      ir_wellFormed := rfl
      ir_execute := by simp [hp]
      ir_halted := by simp [hp] }
  rcases decodePhase_cases s with ⟨hb, e⟩ | ⟨-, hv, e⟩ | ⟨-, hv, e⟩ <;> rw [e]
  · exact h.raise (by simp) (by simp [FaultRecord.wellFormed]) (.inl rfl) (fun _ => by simpa using hb)
  · exact hi.raise (by simp) (by simp [FaultRecord.wellFormed, hv]) (.inl rfl) (by simp)
  · exact
      { h with
        running_iff := by simpa [hp, Phase.isRunning] using h.running_iff
        ir_wellFormed := by simpa [InstrReg.wellFormed] using hv
        fault_iff := by simp [hk]
        fault_iaddr := by simp
        fault_opcode := by simp
        pc_next := fun _ => h.pc_next (.inl hp)
        ir_execute := fun _ => ⟨rfl, rfl⟩
        ir_halted := by simp }

/-- What an instruction does keeps the invariant, in EXECUTE of that instruction. -/
theorem Effect.inv {s t : State} {i : Instr} (he : Effect i s t) (h : s.Inv) (hp : s.phase = .execute)
    (hi : s.ir.instruction = some i) : t.Inv := by
  obtain ⟨hv, hop, -⟩ := InstrReg.instruction_eq_some hi
  have hfl : i.opcode.byte = s.fl := hop.symm.trans (h.ir_execute hp).2
  have hne : s.phase ≠ .faulted := by simp [hp]
  have hrun : s.running = true := by simpa [hp, Phase.isRunning] using h.running_iff
  have hfetch : s.endExecute.Inv := (h.setControl_fetch hne).of_same (by simp [State.endExecute, hrun])
  cases he with
  | dataFault hc hb =>
    have hlo := (opcodeByteValid_eq_true.mp (opcodeByteValid_byte i.opcode)).1
    exact h.raise (by simp) (by simp [FaultRecord.wellFormed, hc, hlo]) (.inl hfl) (fun _ => by simpa using hb)
  | zeroDivisor hc =>
    exact h.raise (by simp) (by rw [hc]; simp [FaultRecord.wellFormed, Instr.opcode]) (.inl hfl) (by simp)
  | store _ hb => exact hfetch.setMem_set (sp := .dmem) hb s.acc
  | jump p =>
    exact
      { hfetch with
        pc_next := by simp }
  | halt hc =>
    have hhlt : s.ir.op = Opcode.hlt.byte := by rw [hop, hc]; rfl
    have hh : (s.setControl false .halted).Inv :=
      h.setControl (p := .halted) hne (by simp) (by simp) (by simp) (fun _ => ⟨hv, hhlt⟩)
    exact hh.of_same rfl
  | writeAcc v => exact hfetch.of_same rfl
  | input v rest => exact hfetch.of_same rfl
  | output rest => exact hfetch.of_same rfl
  | inputNever | outputNever => exact h
  | inputWait rest => exact h.of_same rfl
  | outputWait rest => exact h.of_same rfl

/-! ### The host -/

theorem State.Inv.reply {s : State} (h : s.Inv) (r : HostReply) : (s.reply r).Inv := h.of_same rfl

/-- PC is tied to IADDR in DECODE and EXECUTE only. -/
theorem State.Inv.setPc {s : State} (h : s.Inv) (hs : s.phase.isRunning = false) (v : Byte) : (s.setPc v).Inv :=
  { h with
    pc_next := by
      rintro (hp | hp) <;> simp [show s.phase = _ from hp, Phase.isRunning] at hs }

theorem State.Inv.loadProgram {s : State} (h : s.Inv) (image : List Byte) : (s.loadProgram image).Inv := by
  unfold State.loadProgram
  split
  · rename_i hf
    have hf : image.length ≤ s.cfg.imemSize := by simpa [imageFits] using hf
    exact
      { h with
        imem_wf := Memory.load_wf h.imem_wf 0 image
        imem_below := Memory.load_below h.imem_below 0 image (by simpa using hf)
        running_iff := rfl
        fault_wellFormed := FaultRecord.clear_wellFormed
        fault_iff := by simp [FaultRecord.clear]
        fault_iaddr := by simp
        fault_opcode := by simp
        fault_addr := by simp [FaultRecord.clear]
        pc_next := by simp
        ir_execute := by simp
        ir_halted := by simp }
  · exact h.reply _

theorem State.Inv.loadData {s : State} (h : s.Inv) (image : List Byte) : (s.loadData image).Inv := by
  unfold State.loadData
  split
  · rename_i hf
    have hf : image.length ≤ s.cfg.dmemSize := by simpa [imageFits] using hf
    have hm : (s.setMem .dmem (s.dmem.load 0 image)).Inv :=
      h.setMem (Memory.load_wf h.dmem_wf 0 image) (Memory.load_below h.dmem_below 0 image (by simpa using hf))
    exact hm.reply _
  · exact h.reply _

theorem State.Inv.start {s : State} (h : s.Inv) : s.start.Inv := by
  unfold State.start
  split
  case h_1 | h_2 => exact h.reply _
  case h_3 hp => exact h.setControl_fetch (by simp [hp])
  case h_4 | h_5 | h_6 => exact h

theorem State.Inv.hostCommand {s : State} (h : s.Inv) (hs : s.phase.isRunning = false) (c : HostCommand) :
    (s.hostCommand c).Inv := by
  cases c with
  | loadProgram image => exact h.loadProgram image
  | loadData image => exact h.loadData image
  | start => exact h.start
  | setPc b => exact (h.setPc hs b).reply _
  | setAcc b => exact State.Inv.reply (h.of_same (t := s.setAcc b) rfl) _
  | write sp a v =>
    rw [State.hostCommand, State.writeByte_eq]
    split
    · rename_i ha
      exact (h.setMem_set ha v).reply _
    · exact h.reply _
  | writeWord sp a w =>
    rw [State.hostCommand, State.writeWord_eq]
    split
    · rename_i ha
      have hwf := Memory.set_wf (h.mem_wf sp) a.toNat (w.extractLsb' 8 8)
      have hbelow := Memory.set_below (h.mem_below sp) (a := a.toNat) (by omega) (w.extractLsb' 8 8)
      exact (h.setMem (Memory.set_wf hwf _ _) (Memory.set_below hbelow ha _)).reply _
    · exact h.reply _
  | getRegister | getInstruction | getStatus | read | readWord => exact h.reply _

theorem State.Inv.hostMove {s : State} (h : s.Inv) (hs : s.phase.isRunning = false) : s.hostMove.Inv := by
  cases hc : s.commands with
  | nil => rwa [State.hostMove_nil hc]
  | cons c rest =>
    rw [State.hostMove_cons hc]
    exact State.Inv.hostCommand (s := { s with commands := rest }) (h.of_same rfl) hs c

/-! ### The step -/

theorem step_inv {s t : State} (h : s.Inv) (ht : step s = .next t) : t.Inv := by
  cases hr : s.phase.isRunning with
  | false =>
    cases (step_of_stopped hr).symm.trans ht
    exact h.hostMove hr
  | true =>
    rcases step_running_cases hr ht with ⟨hp, rfl⟩ | ⟨hp, rfl⟩ | ⟨hp, i, hi, he⟩
    · exact fetchPhase_inv h hp
    · exact decodePhase_inv h hp
    · exact (exec_effect he).inv h hp hi

/-- R124: in EXECUTE, IR holds an instruction. -/
theorem State.Inv.instruction {s : State} (h : s.Inv) (hp : s.phase = .execute) :
    ∃ i, s.ir.instruction = some i := by
  obtain ⟨hv, -⟩ := h.ir_execute hp
  exact InstrReg.instruction_of_valid hv (by simpa [InstrReg.wellFormed, hv] using h.ir_wellFormed)

/-- R221: DAT, and no other instruction, has no next state. -/
theorem exec_next_or_dat (i : Instr) (s : State) :
    (∃ t, exec i s = .next t) ∧ i.opcode.byte ≠ 0x11#8 ∨
      exec i s = .refused .datExecute ∧ i.opcode.byte = 0x11#8 := by
  cases he : exec i s with
  | next t =>
    refine .inl ⟨⟨t, rfl⟩, fun hb => ?_⟩
    rw [(Instr.opcode_byte_eq (o := .dat)).mp hb] at he
    cases he
  | fault r => exact absurd he (exec_ne_fault i s r)
  | refused r =>
    obtain ⟨hd, rfl⟩ := exec_refused he
    exact .inr ⟨rfl, (Instr.opcode_byte_eq (o := .dat)).mpr hd⟩

/-- R6's ranges are all that the invariant asks of power-on. -/
theorem State.powerOn_inv {c : Config} (h : c.wellFormed = true) : (State.powerOn c).Inv where
  cfg_wellFormed := h
  imem_wf := Memory.nil_wf
  dmem_wf := Memory.nil_wf
  imem_below := by simp [State.powerOn]
  dmem_below := by simp [State.powerOn]
  running_iff := rfl
  ir_wellFormed := rfl
  fault_wellFormed := FaultRecord.clear_wellFormed
  fault_iff := by simp [State.powerOn, FaultRecord.clear]
  fault_iaddr := by simp [State.powerOn]
  fault_opcode := by simp [State.powerOn]
  fault_addr := by simp [State.powerOn, FaultRecord.clear]
  pc_next := by simp [State.powerOn]
  ir_execute := by simp [State.powerOn]
  ir_halted := by simp [State.powerOn]

end Sys2Proof.Machine

namespace Sys2Proof.Proofs

open Sys2Proof.Machine

/-- Settles O47: a stopped machine takes a host operation, a running one FETCH, DECODE or the effect of the instruction
in IR, and each of these keeps the invariant. -/
theorem stepKeepsInvariant : Obligations.StepKeepsInvariant := fun _ _ => step_inv

/-- Settles O48: at power-on nothing runs, no report is held and both memories list nothing. -/
theorem powerOnMeetsInvariant : Obligations.PowerOnMeetsInvariant :=
  ⟨fun _ h => State.powerOn_inv h, State.powerOn_inv (by decide)⟩

/-- Settles O49: every phase but EXECUTE has a next state; in EXECUTE the invariant puts an instruction in IR, and `exec`
refuses DAT alone. -/
theorem onlyDatStopsAProperState : Obligations.OnlyDatStopsAProperState := by
  intro s h
  cases hp : s.phase with
  | loaded | halted | faulted => exact .inl ⟨⟨_, step_of_stopped (by rw [hp]; rfl)⟩, by simp⟩
  | fetch => exact .inl ⟨⟨_, step_of_fetch hp⟩, by simp⟩
  | decode => exact .inl ⟨⟨_, step_of_decode hp⟩, by simp⟩
  | execute =>
    obtain ⟨i, hi⟩ := h.instruction hp
    obtain ⟨-, hop, -⟩ := InstrReg.instruction_eq_some hi
    rw [step_of_execute hp, executePhase_of_instruction hi, hop]
    simpa using exec_next_or_dat i s

end Sys2Proof.Proofs
end

section
/-! Proofs of the statements about FETCH, DECODE, the cycle and the steps it is made of (spec/40_cycle.md), with those
about a run's first cycle: one HLT (R127), one DAT (R221), and a table word placed at PC. -/

namespace Sys2Proof.Machine

/-! ### Runs of a few steps -/

theorem run_succ {s t : State} (h : step s = .next t) (n : Nat) :
    Host.Core.run core (n + 1) s = Host.Core.run core n t := by
  have hc : core.step s = .next t := h
  simp only [Host.Core.run, hc]

theorem run_one (s : State) : Host.Core.run core 1 s = step s := by
  cases h : step s with
  | next t => exact run_succ h 0
  | fault r =>
    have hc : core.step s = .fault r := h
    simp only [Host.Core.run, hc]
    rfl
  | refused r =>
    have hc : core.step s = .refused r := h
    simp only [Host.Core.run, hc]
    rfl

theorem run_two {s t : State} (h : step s = .next t) : Host.Core.run core 2 s = step t :=
  (run_succ h 1).trans (run_one t)

theorem run_three {s t u : State} (h : step s = .next t) (h' : step t = .next u) : Host.Core.run core 3 s = step u :=
  (run_succ h 2).trans (run_two h')

/-- A run of `k` steps ends in one state. -/
theorem Reaches.unique {s t u : State} {k : Nat} (h : Reaches s k t) (h' : Reaches s k u) : t = u :=
  Host.Outcome.next.inj (h.symm.trans h')

/-! ### FETCH and DECODE where they succeed -/

theorem fetchPhase_of_inBounds {s : State} (h : s.pc.toNat < s.cfg.imemSize) : fetchPhase s = s.fetched := by
  rcases fetchPhase_cases s with ⟨ho, -⟩ | ⟨-, e⟩
  · omega
  · exact e

/-- Both bytes in bounds and a valid opcode byte: FETCH and DECODE take a step each. -/
theorem step_fetch_decode {s : State} (hp : s.phase = .fetch) (hb : s.pc.toNat + 1 < s.cfg.imemSize)
    (hv : opcodeByteValid (s.imem.get s.pc.toNat) = true) :
    step s = .next s.fetched ∧ step s.fetched = .next s.fetched.decoded := by
  rw [step_of_fetch hp, fetchPhase_of_inBounds (by omega), step_of_decode (s := s.fetched) rfl,
    decodePhase_of_valid (s := s.fetched) hb hv]
  exact ⟨rfl, rfl⟩

theorem reaches_decoded {s : State} (hp : s.phase = .fetch) (hb : s.pc.toNat + 1 < s.cfg.imemSize)
    (hv : opcodeByteValid (s.imem.get s.pc.toNat) = true) : Reaches s 2 s.fetched.decoded := by
  obtain ⟨hf, hd⟩ := step_fetch_decode hp hb hv
  exact (run_two hf).trans hd

/-- What the instruction after FETCH and DECODE is: the one its two bytes spell. -/
theorem step_decoded {s : State} {i : Instr} (hop : s.imem.get s.pc.toNat = i.opcode.byte)
    (hx : s.imem.get (s.pc.toNat + 1) = i.operand) :
    s.fetched.decoded.ir = { valid := true, op := i.opcode.byte, operand := i.operand } ∧
      s.fetched.decoded.ir.instruction = some i ∧ step s.fetched.decoded = exec i s.fetched.decoded := by
  have hir : s.fetched.decoded.ir = { valid := true, op := i.opcode.byte, operand := i.operand } := by
    simp [State.decoded, State.fetched, hop, hx]
  have hi : s.fetched.decoded.ir.instruction = some i := by
    rw [hir, InstrReg.instruction_of_byte, Instr.opcode_withOperand]
  exact ⟨hir, hi, (step_of_execute rfl).trans (executePhase_of_instruction hi)⟩

/-- R127: such a cycle is the step of EXECUTE at the end of it. -/
theorem cycle_eq_step_decoded {s : State} (hp : s.phase = .fetch) (hb : s.pc.toNat + 1 < s.cfg.imemSize)
    (hv : opcodeByteValid (s.imem.get s.pc.toNat) = true) : cycle s = step s.fetched.decoded := by
  rw [cycle_of_fetch hp, fetchPhase_of_inBounds (by omega), thenDecode, if_pos (show s.fetched.phase = .decode from rfl),
    decodePhase_of_valid (s := s.fetched) hb hv, thenExecute, if_pos rfl]
  exact (step_of_execute (s := s.fetched.decoded) rfl).symm

/-! ### Moves of PHASE -/

/-- What a host operation does to PHASE, RUNNING and FAULT. -/
theorem State.hostCommand_control (s : State) (c : HostCommand) :
    ((s.hostCommand c).phase = s.phase ∧ (s.hostCommand c).fault = s.fault) ∨
    (c = .start ∧ s.phase = .loaded ∧ (s.hostCommand c).phase = .fetch ∧ (s.hostCommand c).running = true ∧
      (s.hostCommand c).fault = s.fault) ∨
    (∃ image, c = .loadProgram image ∧ image.length ≤ s.cfg.imemSize ∧ (s.hostCommand c).phase = .loaded ∧
      (s.hostCommand c).fault = FaultRecord.clear) := by
  cases c with
  | loadProgram image =>
    by_cases hf : image.length ≤ s.cfg.imemSize
    · exact .inr (.inr ⟨image, rfl, hf, by simp [State.hostCommand, State.loadProgram, imageFits, hf]⟩)
    · exact .inl (by simp [State.hostCommand, State.loadProgram, imageFits, hf])
  | start =>
    cases hp : s.phase with
    | loaded => exact .inr (.inl (by simp [State.hostCommand, State.start, hp]))
    | _ => exact .inl (by simp [State.hostCommand, State.start, hp])
  | loadData image =>
    refine .inl ?_
    rw [State.hostCommand, State.loadData]
    split <;> simp
  | write sp a v =>
    refine .inl ?_
    rw [State.hostCommand, State.writeByte_eq]
    split <;> simp [State.hostWrite]
  | writeWord sp a w =>
    refine .inl ?_
    rw [State.hostCommand, State.writeWord_eq]
    split <;> simp [State.hostWrite]
  | getRegister | setPc | setAcc | getInstruction | getStatus | read | readWord =>
    exact .inl (by simp [State.hostCommand])

/-- The same of a host move, by the operation at the head of the list. -/
theorem State.hostMove_control (s : State) :
    (s.hostMove.phase = s.phase ∧ s.hostMove.fault = s.fault) ∨
    (s.phase = .loaded ∧ s.hostMove.phase = .fetch ∧ s.hostMove.running = true ∧ s.hostMove.fault = s.fault ∧
      ∃ rest, s.commands = .start :: rest) ∨
    (s.hostMove.phase = .loaded ∧ s.hostMove.fault = FaultRecord.clear ∧
      ∃ image rest, s.commands = .loadProgram image :: rest ∧ image.length ≤ s.cfg.imemSize) := by
  cases hc : s.commands with
  | nil => exact .inl (by simp [State.hostMove_nil hc])
  | cons c rest =>
    rw [State.hostMove_cons hc]
    rcases State.hostCommand_control { s with commands := rest } c with
      h | ⟨rfl, hp, hf, hr, he⟩ | ⟨image, rfl, hl, hp, he⟩
    · exact .inl h
    · exact .inr (.inl ⟨hp, hf, hr, he, rest, rfl⟩)
    · exact .inr (.inr ⟨hp, he, image, rest, rfl, hl⟩)

/-- Where an instruction leaves PHASE: the next FETCH, HALTED, a fault, or a port that did not answer. -/
theorem Effect.phase_cases {i : Instr} {s t : State} (h : Effect i s t) :
    (t.phase = .fetch ∧ i.opcode.byte ≠ 0x0E#8) ∨ (t.phase = .halted ∧ i.opcode.byte = 0x0E#8) ∨
    (t.phase = .faulted ∧ i.opcode.byte.toNat ≤ 0x06) ∨
    (t.phase = s.phase ∧ (i.opcode = .inp ∨ i.opcode = .out) ∧
      t = { s with inPort := t.inPort, outPort := t.outPort }) := by
  have hlt : (0x0E#8).toNat = 14 := rfl
  cases h with
  | dataFault hi => exact .inr (.inr (.inl ⟨rfl, hi⟩))
  | zeroDivisor hi => exact .inr (.inr (.inl ⟨rfl, by rw [hi]; simp [Instr.opcode, Opcode.byte]⟩))
  | halt hi => exact .inr (.inl ⟨rfl, by rw [hi]; rfl⟩)
  | inputNever hi | inputWait _ hi => exact .inr (.inr (.inr ⟨rfl, .inl (by rw [hi]; rfl), rfl⟩))
  | outputNever hi | outputWait _ hi => exact .inr (.inr (.inr ⟨rfl, .inr (by rw [hi]; rfl), rfl⟩))
  | writeAcc _ hi => exact .inl ⟨rfl, fun hb => by rw [hb] at hi; omega⟩
  | jump _ hi => exact .inl ⟨rfl, fun hb => by rw [hb] at hi; omega⟩
  | store hi | input _ _ hi | output _ hi => exact .inl ⟨rfl, by rw [hi]; simp [Instr.opcode, Opcode.byte]⟩

/-! ### A table word at PC -/

theorem decodeTableWord_eq_some {nbits w : Nat} {i : Instr} (h : decodeTableWord nbits w = some i) :
    tableOpcodeByte nbits w = i.opcode.byte ∧ tableOperandByte nbits w = i.operand := by
  unfold decodeTableWord at h
  split at h
  · rename_i j rest hd
    obtain ⟨b, x, hbytes, hbx⟩ := decode_eq_ok.mp hd
    cases h
    cases hbytes
    exact decodeBytes_eq_ok.mp hbx
  · cases h

/-- The running machine with an instruction's two bytes at PC. -/
def State.placed (s : State) (i : Instr) : State := (s.placeBytes i.opcode.byte i.operand).setControl true .fetch

theorem State.withFetchWord_eq_placed {s : State} {nbits w : Nat} {i : Instr} (h : decodeTableWord nbits w = some i) :
    s.withFetchWord nbits w = (s.placed i).beforeLastPhase := by
  obtain ⟨hop, hx⟩ := decodeTableWord_eq_some h
  rw [State.withFetchWord, hop, hx, State.placed]

/-- The placed bytes are where FETCH and DECODE read them. -/
theorem State.placed_get (s : State) (i : Instr) :
    (s.placed i).imem.get s.pc.toNat = i.opcode.byte ∧ (s.placed i).imem.get (s.pc.toNat + 1) = i.operand := by
  simp [State.placed, State.placeBytes, Memory.get_set]

/-- Where FETCH and DECODE succeed, the last transition of the cycle is EXECUTE's. -/
theorem State.beforeLastPhase_eq_decoded {s : State} (hb : s.pc.toNat + 1 < s.cfg.imemSize)
    (hv : opcodeByteValid (s.imem.get s.pc.toNat) = true) : s.beforeLastPhase = s.fetched.decoded := by
  have hd : decodePhase s.fetched = s.fetched.decoded := decodePhase_of_valid (s := s.fetched) hb hv
  rw [State.beforeLastPhase, fetchPhase_of_inBounds (by omega),
    if_pos (show s.fetched.phase = .decode from rfl), hd, if_pos (show s.fetched.decoded.phase = .execute from rfl)]

end Sys2Proof.Machine

namespace Sys2Proof.Proofs

open Sys2Proof.Machine

/-- Settles O8: each phase that leads on takes one step, and the cycle goes on where that step leads. -/
theorem cycleIsStepsOfItsPhases : Obligations.CycleIsStepsOfItsPhases := by
  refine fun s => ⟨?one, fun hp hx => ?decodeExecute, fun hp hx => ?decodeFault, fun hp hd => ?fetchFault,
    fun hp hd hx => ?fetchDecode, fun hp hd hx => ?fetchExecute⟩
  case one =>
    rintro (hp | hp)
    · rw [run_one, cycle_of_stopped hp]
    · rw [run_one, cycle_of_execute hp]
  case decodeExecute => rw [run_two (step_of_decode hp), step_of_execute hx, cycle_of_decode hp, thenExecute, if_pos hx]
  case decodeFault => rw [run_one, step_of_decode hp, cycle_of_decode hp, thenExecute, if_neg hx]
  case fetchFault => rw [run_one, step_of_fetch hp, cycle_of_fetch hp, thenDecode, if_neg hd]
  case fetchDecode =>
    rw [run_two (step_of_fetch hp), step_of_decode hd, cycle_of_fetch hp, thenDecode, if_pos hd, thenExecute, if_neg hx]
  case fetchExecute =>
    rw [run_three (step_of_fetch hp) (step_of_decode hd), step_of_execute hx, cycle_of_fetch hp, thenDecode, if_pos hd,
      thenExecute, if_pos hx]

/-- Settles O9: a host move in the stopped phases, the cases of FETCH and DECODE, and in EXECUTE what the instruction
in IR does to PHASE. -/
theorem phaseMovesOnlyAlongTable : Obligations.PhaseMovesOnlyAlongTable := by
  intro s t h
  cases hp : s.phase with
  | loaded =>
    cases (step_of_stopped (by rw [hp]; rfl)).symm.trans h
    rcases s.hostMove_control with ⟨e, -⟩ | ⟨-, e, hr, -, hc⟩ | ⟨e, -⟩
    · exact .inl (e.trans hp)
    · exact .inr ⟨e, hr, hc⟩
    · exact .inl e
  | halted | faulted =>
    cases (step_of_stopped (by rw [hp]; rfl)).symm.trans h
    rcases s.hostMove_control with ⟨e, -⟩ | ⟨hl, -⟩ | ⟨e, -, hc⟩
    · exact .inl (e.trans hp)
    · cases hp.symm.trans hl
    · exact .inr ⟨e, hc⟩
  | fetch =>
    cases (step_of_fetch hp).symm.trans h
    rcases fetchPhase_cases s with ⟨hb, e⟩ | ⟨hb, e⟩ <;> rw [e]
    · exact .inr ⟨rfl, hb⟩
    · exact .inl ⟨rfl, hb⟩
  | decode =>
    cases (step_of_decode hp).symm.trans h
    rcases decodePhase_cases s with ⟨hb, e⟩ | ⟨-, hv, e⟩ | ⟨-, hv, e⟩ <;> rw [e]
    · exact .inr ⟨rfl, .inl hb⟩
    · exact .inr ⟨rfl, .inr hv⟩
    · exact .inl ⟨rfl, hv⟩
  | execute =>
    obtain ⟨i, hi, he⟩ := executePhase_next ((step_of_execute hp).symm.trans h)
    obtain ⟨hv, hop, -⟩ := InstrReg.instruction_eq_some hi
    simp only [hop]
    rcases (exec_effect he).phase_cases with hf | hh | hd | ⟨hw, hport, e⟩
    · exact .inl hf
    · exact .inr (.inl hh)
    · exact .inr (.inr (.inl hd))
    · refine .inr (.inr (.inr ⟨hw.trans hp, ?_, by rwa [hp] at e⟩))
      rcases hport with hc | hc
      · exact .inl (by simp [State.inReq, hp, hv, hop, hc])
      · exact .inr (by simp [State.outValid, hp, hv, hop, hc])

/-- Settles O5: the two bytes spell i, so FETCH and DECODE succeed and the step after them is EXECUTE's. -/
theorem stepRunsDecodedInstruction : Obligations.StepRunsDecodedInstruction := by
  refine ⟨fun s i hp hi => (step_of_execute hp).trans (executePhase_of_instruction hi), ?_⟩
  intro s i b c hp _ hb hc hd
  obtain ⟨-, hb⟩ := State.readByte_eq_some.mp hb
  obtain ⟨hlt, hc⟩ := State.readByte_eq_some.mp hc
  obtain ⟨rfl, rfl⟩ := decodeBytes_eq_ok.mp hd
  simp only [State.mem_imem, opcodeAddress_toNat] at hb
  simp only [State.mem_imem, State.size_imem, operandAddress_toNat] at hc hlt
  have hv : opcodeByteValid (s.imem.get s.pc.toNat) = true := hb ▸ opcodeByteValid_byte i.opcode
  obtain ⟨hf, hdec⟩ := step_fetch_decode hp hlt hv
  obtain ⟨-, hi, hs⟩ := step_decoded hb hc
  refine ⟨s.fetched.decoded, ?_, reaches_decoded hp hlt hv, hi, hs, (run_three hf hdec).trans hs,
    (cycle_eq_step_decoded hp hlt hv).trans hs⟩
  rw [← hb, ← hc]
  rfl

/-- Settles O6: FETCH in bounds leaves `State.fetched`; out of bounds it is a `raise`, whose fields are known. -/
theorem fetchReadsOpcodeAndAdvances : Obligations.FetchReadsOpcodeAndAdvances := by
  refine fun s hp => ⟨fun hb => ?inBounds, fun hb => ?outOfBounds⟩
  case inBounds =>
    rw [step_of_fetch hp, fetchPhase_of_inBounds hb]
    rfl
  case outOfBounds =>
    refine ⟨_, step_of_fetch hp, ?_⟩
    simp [fetchPhase_of_outOfBounds hb, zext32_eq_ofNat]

/-- Settles O7: the three cases of DECODE, of which two are a `raise`, whose fields are known. -/
theorem decodeReadsOperandThenChecksOpcode : Obligations.DecodeReadsOperandThenChecksOpcode := by
  refine fun s hp => ⟨fun hb => ?outOfBounds, fun hb hv => ?invalid, fun hb hv => ?valid⟩
  case outOfBounds =>
    refine ⟨_, step_of_decode hp, ?_⟩
    simp [decodePhase_of_outOfBounds hb, operandAddress_eq_ofNat]
  case invalid =>
    refine ⟨_, step_of_decode hp, ?_⟩
    simp [decodePhase_of_invalid hb hv, InstrReg.empty]
  case valid => rw [step_of_decode hp, decodePhase_of_valid hb hv]

/-- Settles O26: 0x0E is the byte of HLT, so the three steps are FETCH, DECODE and the halt, and the states before the
last are s, `State.fetched` and `State.decoded`. -/
theorem singleHltHaltsInOneCycle : Obligations.SingleHltHaltsInOneCycle := by
  intro s hp hb hop
  have hv : opcodeByteValid (s.imem.get s.pc.toNat) = true := hop ▸ opcodeByteValid_byte .hlt
  obtain ⟨hf, hd⟩ := step_fetch_decode hp hb hv
  obtain ⟨hir, -, hs⟩ := step_decoded (i := .hlt (s.imem.get (s.pc.toNat + 1))) hop rfl
  refine ⟨s.fetched.decoded.halt, (cycle_eq_step_decoded hp hb hv).trans hs, (run_three hf hd).trans hs, rfl, rfl, rfl,
    rfl, rfl, rfl, hop, hir, fun k u hk hu => ?_⟩
  match k, hk with
  | 0, _ =>
    cases (show Reaches s 0 s from rfl).unique hu
    rw [hp]
    rfl
  | 1, _ =>
    cases (show Reaches s 1 s.fetched from (run_one s).trans hf).unique hu
    rfl
  | 2, _ =>
    cases (reaches_decoded hp hb hv).unique hu
    rfl

/-- Settles O32: 0x11 is the byte of DAT, which decodes like any instruction and which `exec` refuses. -/
theorem datExecuteIsRefused : Obligations.DatExecuteIsRefused := by
  refine ⟨fun x s => rfl, fun s hp hb hop => ?_⟩
  have hv : opcodeByteValid (s.imem.get s.pc.toNat) = true := hop ▸ opcodeByteValid_byte .dat
  obtain ⟨-, -, hs⟩ := step_decoded (i := .dat (s.imem.get (s.pc.toNat + 1))) hop rfl
  refine ⟨s.fetched.decoded, reaches_decoded hp hb hv, hs, ?_⟩
  rw [← hop]
  rfl

/-- Settles O60: the placed bytes are the table word's, which spell i, so FETCH and DECODE succeed and the state before
the last transition is theirs. -/
theorem withFetchWordRunsTheWord : Obligations.WithFetchWordRunsTheWord := by
  intro s w i hb hw
  obtain ⟨hop, hx⟩ := s.placed_get i
  have hv : opcodeByteValid ((s.placed i).imem.get s.pc.toNat) = true := by rw [hop, opcodeByteValid_byte]
  obtain ⟨hir, -, hs⟩ := step_decoded (s := s.placed i) hop hx
  refine ⟨(s.placed i).fetched.decoded, ?_, hs, rfl, rfl, rfl, rfl, rfl, rfl, rfl, hir, hop, hop, hx,
    reaches_decoded (s := s.placed i) rfl hb hv⟩
  rw [State.withFetchWord_eq_placed hw, State.beforeLastPhase_eq_decoded (s := s.placed i) hb hv]

end Sys2Proof.Proofs
end

section
/-! Proofs of the statements about the data instructions (spec/41_arithmetic.md, 42_load_store.md): ADD, SUB, MUL, DIV,
STA and LDA. -/

namespace Sys2Proof.Machine

/-! ### The data instructions in bounds -/

theorem execDiv_of_divisor {s : State} {a : Byte} (h : a.toNat < s.cfg.dmemSize) (hz : s.dmem.get a.toNat ≠ 0x00#8) :
    execDiv a s = .next { s with acc := alu .div s.acc (s.dmem.get a.toNat), phase := .fetch } := by
  rcases execDiv_cases a s with ⟨ho, -⟩ | ⟨-, hz', -⟩ | ⟨-, -, e⟩
  · omega
  · exact absurd hz' hz
  · exact e

theorem execDiv_of_zero {s : State} {a : Byte} (h : a.toNat < s.cfg.dmemSize) (hz : s.dmem.get a.toNat = 0x00#8) :
    execDiv a s = .next (s.raise .divisionByZero .imem 0#32 Opcode.div.byte (some a)) := by
  rcases execDiv_cases a s with ⟨ho, -⟩ | ⟨-, -, e⟩ | ⟨-, hz', -⟩
  · omega
  · exact e
  · exact absurd hz hz'

theorem execSta_of_inBounds {s : State} {a : Byte} (h : a.toNat < s.cfg.dmemSize) :
    execSta a s = .next { s with dmem := s.dmem.set a.toNat s.acc, phase := .fetch } := by
  rcases execSta_cases a s with ⟨ho, -⟩ | ⟨-, e⟩
  · omega
  · exact e

theorem execLda_of_inBounds {s : State} {a : Byte} (h : a.toNat < s.cfg.dmemSize) :
    execLda a s = .next { s with acc := s.dmem.get a.toNat, phase := .fetch } := by
  rcases execLda_cases a s with ⟨ho, -⟩ | ⟨-, e⟩
  · omega
  · exact e

/-! ### The ALU's bytes -/

/-- R152: the ALU's difference is the integer difference reduced mod 256. -/
theorem alu_sub_eq_ofInt (x y : Byte) : alu .sub x y = BitVec.ofInt 8 ((x.toNat : Int) - (y.toNat : Int)) := by
  have hx := x.isLt
  have hy := y.isLt
  apply BitVec.eq_of_toNat_eq
  simp only [alu, BitVec.toNat_ofNat, BitVec.toNat_ofInt]
  omega

/-- R154: the quotient q of ACC by m has m q ≤ ACC < m (q + 1). -/
theorem alu_div_bounds {x m : Byte} (hm : m ≠ 0x00#8) :
    m.toNat * (alu .div x m).toNat ≤ x.toNat ∧ x.toNat < m.toNat * ((alu .div x m).toNat + 1) := by
  have hpos : 0 < m.toNat := Nat.pos_of_ne_zero fun h => hm (BitVec.eq_of_toNat_eq h)
  have hq : (alu .div x m).toNat = x.toNat / m.toNat := by
    have hle := Nat.div_le_self x.toNat m.toNat
    have hx := x.isLt
    rw [alu, BitVec.toNat_ofNat, Nat.mod_eq_of_lt (by omega)]
  rw [hq]
  exact ⟨Nat.mul_div_le _ _, Nat.lt_mul_div_succ _ hpos⟩

/-- R7: the two's-complement reading differs from the unsigned one by a multiple of 256. -/
theorem s8_modEq (v : Byte) : s8 v ≡ v.toNat [ZMOD 256] := by
  unfold s8
  split
  · exact Int.ModEq.refl _
  · exact Int.sub_emod_right _ _

theorem s8_ofNat_modEq (n : Nat) : s8 (BitVec.ofNat 8 n) ≡ n [ZMOD 256] := by
  refine (s8_modEq _).trans ?_
  rw [BitVec.toNat_ofNat]
  push_cast
  exact Int.mod_modEq _ _

theorem s8_alu_add (x y : Byte) : s8 (alu .add x y) ≡ s8 x + s8 y [ZMOD 256] := by
  calc s8 (alu .add x y) ≡ ((x.toNat + y.toNat) % 256 : Nat) [ZMOD 256] := s8_ofNat_modEq _
    _ ≡ x.toNat + y.toNat [ZMOD 256] := by push_cast; exact Int.mod_modEq _ _
    _ ≡ s8 x + s8 y [ZMOD 256] := ((s8_modEq x).add (s8_modEq y)).symm

theorem s8_alu_sub (x y : Byte) : s8 (alu .sub x y) ≡ s8 x - s8 y [ZMOD 256] := by
  have hy := y.isLt
  calc s8 (alu .sub x y) ≡ ((x.toNat + 256 - y.toNat) % 256 : Nat) [ZMOD 256] := s8_ofNat_modEq _
    _ ≡ x.toNat - y.toNat [ZMOD 256] := by unfold Int.ModEq; omega
    _ ≡ s8 x - s8 y [ZMOD 256] := ((s8_modEq x).sub (s8_modEq y)).symm

theorem s8_alu_mul (x y : Byte) : s8 (alu .mul x y) ≡ s8 x * s8 y [ZMOD 256] := by
  calc s8 (alu .mul x y) ≡ (x.toNat * y.toNat % 256 : Nat) [ZMOD 256] := s8_ofNat_modEq _
    _ ≡ x.toNat * y.toNat [ZMOD 256] := by push_cast; exact Int.mod_modEq _ _
    _ ≡ s8 x * s8 y [ZMOD 256] := ((s8_modEq x).mul (s8_modEq y)).symm

end Sys2Proof.Machine

namespace Sys2Proof.Proofs

open Sys2Proof.Machine

/-- Settles O15: a byte's two readings are congruent modulo 256, and sums, differences and products keep that. -/
theorem signedReadingAgreesModulo256 : Obligations.SignedReadingAgreesModulo256 := fun x y =>
  ⟨Int.emod_eq_emod_iff_emod_sub_eq_zero.mp (s8_alu_add x y),
    Int.emod_eq_emod_iff_emod_sub_eq_zero.mp (s8_alu_sub x y),
    Int.emod_eq_emod_iff_emod_sub_eq_zero.mp (s8_alu_mul x y)⟩

/-- Settles O18: out of bounds each of the six is the same `raise`, whose address is the operand. -/
theorem dataAccessOutOfBoundsFaults : Obligations.DataAccessOutOfBoundsFaults := by
  intro a s i hi h
  rw [exec_data_outOfBounds hi h, zext32_eq_ofNat]
  rfl

/-- Settles O11: the decoder's law at the byte of SUB, and the ALU's difference. -/
theorem subWritesWrappedDifference : Obligations.SubWritesWrappedDifference := by
  refine fun a s => ⟨decodeBytes_byte .sub a, fun h => ?_⟩
  rw [← alu_sub_eq_ofInt]
  exact congrArg Host.Outcome.next (executeAlu_of_inBounds .sub _ h)

/-- Settles O12: the decoder's law at the byte of MUL, and the ALU's product. -/
theorem mulWritesLowByteOfProduct : Obligations.MulWritesLowByteOfProduct := fun a _ =>
  ⟨decodeBytes_byte .mul a, fun h => congrArg Host.Outcome.next (executeAlu_of_inBounds .mul _ h)⟩

/-- Settles O13: the quotient is the ALU's. -/
theorem divWritesQuotient : Obligations.DivWritesQuotient := fun a _ =>
  ⟨decodeBytes_byte .div a, fun h hz => ⟨_, execDiv_of_divisor h hz, alu_div_bounds hz⟩⟩

/-- Settles O14: the bounds check comes before the divisor's, and each is a `raise`. -/
theorem divByZeroFaults : Obligations.DivByZeroFaults := fun _ _ =>
  ⟨fun h hz => execDiv_of_zero h hz, fun h => ⟨_, execDiv_of_outOfBounds h, rfl⟩⟩

/-- Settles O16: the store's case in bounds, and what a memory reads after a write. -/
theorem staStoresAcc : Obligations.StaStoresAcc := by
  refine fun a s => ⟨decodeBytes_byte .sta a, fun h => ⟨_, execSta_of_inBounds h, ?_, fun b hb => ?_⟩⟩
  · rw [dataAddress_toNat, Memory.get_set_same]
  · exact Memory.get_set_other _ _ (dataAddress_toNat a ▸ hb)

/-- Settles O17: the load's case in bounds. -/
theorem ldaLoadsAcc : Obligations.LdaLoadsAcc := fun a _ =>
  ⟨decodeBytes_byte .lda a, fun h => execLda_of_inBounds h⟩

/-- Settles O19: in bounds STA only writes its byte, and the load reads that byte. -/
theorem loadSeesLatestStore : Obligations.LoadSeesLatestStore := by
  intro a x p s t h ht
  have hst := Host.Outcome.next.inj (ht.symm.trans (execSta_of_inBounds h))
  have hcfg : t.cfg = s.cfg := by rw [hst]
  have hget : t.dmem.get a.toNat = s.acc := by rw [hst, Memory.get_set_same]
  rw [← hget]
  exact execLda_of_inBounds (s := { t with acc := x, pc := p }) (hcfg ▸ h)

end Sys2Proof.Proofs
end

section
/-! Proofs of the statements about the jumps (spec/43_jumps.md). -/

namespace Sys2Proof.Machine

/-! ### Each jump as the resolver (R182 to R188) -/

theorem exec_jmp (a : Byte) (s : State) :
    exec (.jmp a) s = .next { s with pc := a, phase := .fetch } := rfl

theorem exec_jeq (a : Byte) (s : State) :
    exec (.jeq a) s = .next { s with pc := if s.acc = 0x00#8 then a else s.pc, phase := .fetch } := by
  refine (congrArg Host.Outcome.next (resolve_eq .zero a s)).trans ?_
  simp only [taken, decide_eq_true_eq]

theorem exec_jne (a : Byte) (s : State) :
    exec (.jne a) s = .next { s with pc := if s.acc = 0x00#8 then s.pc else a, phase := .fetch } := by
  refine (congrArg Host.Outcome.next (resolve_eq .nonzero a s)).trans ?_
  simp only [taken, decide_eq_true_eq, ne_eq, ite_not]

theorem exec_jgt (a : Byte) (s : State) :
    exec (.jgt a) s = .next { s with
      pc := if accPositive s.cfg.accCmpSigned s.acc = true then a else s.pc, phase := .fetch } :=
  congrArg Host.Outcome.next (resolve_eq .gt a s)

theorem exec_jlt (a : Byte) (s : State) :
    exec (.jlt a) s = .next { s with
      pc := if accNegative s.cfg.accCmpSigned s.acc = true then a else s.pc, phase := .fetch } :=
  congrArg Host.Outcome.next (resolve_eq .lt a s)

/-! ### The comparisons (R181) -/

theorem byte_eq_zero_iff (v : Byte) : v = 0x00#8 ↔ v.toNat = 0 := BitVec.toNat_inj.symm

theorem accPositive_unsigned (v : Byte) : accPositive false v = true ↔ v ≠ 0x00#8 := by
  rw [Ne, byte_eq_zero_iff]
  simp [accPositive, Nat.pos_iff_ne_zero]

theorem accPositive_signed (v : Byte) : accPositive true v = true ↔ 0x01 ≤ v.toNat ∧ v.toNat ≤ 0x7F := by
  have hv := v.isLt
  rw [accPositive, if_pos rfl, decide_eq_true_eq, s8]
  split <;> omega

theorem accNegative_unsigned (v : Byte) : accNegative false v = false := by simp [accNegative]

theorem accNegative_signed (v : Byte) : accNegative true v = true ↔ 0x80 ≤ v.toNat := by
  have hv := v.isLt
  rw [accNegative, if_pos rfl, decide_eq_true_eq, s8]
  split <;> omega

end Sys2Proof.Machine

namespace Sys2Proof.Proofs

open Sys2Proof.Machine

/-- Settles O21: the decoder's law at the five bytes, and the resolver under `always`, `zero` and `nonzero`. -/
theorem jmpAndZeroTestJumps : Obligations.JmpAndZeroTestJumps := by
  intro a s
  have hzero := byte_eq_zero_iff s.acc
  refine ⟨decodeBytes_byte .jmp a, exec_jmp a s, decodeBytes_byte .jeq a, decodeBytes_byte .jz a,
    decodeBytes_byte .jne a, decodeBytes_byte .jnz a, ?_, rfl, ?_, rfl⟩
  · simp only [exec_jeq, hzero]
  · simp only [exec_jne, hzero]

/-- Settles O22: the decoder's law at the byte of JGT, and the comparison under each value of the parameter. -/
theorem jgtTestsPositive : Obligations.JgtTestsPositive := by
  refine fun a s => ⟨decodeBytes_byte .jgt a, fun hc => ?unsigned, fun hc => ?signed⟩
  case unsigned => simp only [exec_jgt, hc, accPositive_unsigned, ne_eq, ite_not]
  case signed => simp only [exec_jgt, hc, accPositive_signed]

/-- Settles O23: the decoder's law at the byte of JLT, and the comparison under each value of the parameter. -/
theorem jltTestsNegative : Obligations.JltTestsNegative := by
  refine fun a s => ⟨decodeBytes_byte .jlt a, fun hc => ?unsigned, fun hc => ?signed⟩
  case unsigned => simp only [exec_jlt, hc, accNegative_unsigned, Bool.false_eq_true, if_false]
  case signed => simp only [exec_jlt, hc, accNegative_signed]

/-- Settles O24: JMP asks nothing of its target, and FETCH at a target outside IMEM is a `raise`, whose fields are
known. -/
theorem jumpOutsideImemFaultsAtFetch : Obligations.JumpOutsideImemFaultsAtFetch := by
  intro a s h
  refine ⟨_, _, exec_jmp a s, rfl, rfl, step_of_fetch rfl, ?_⟩
  rw [fetchPhase_of_outOfBounds (s := { s with pc := a, phase := .fetch }) h]
  simp [zext32_eq_ofNat]

/-- Settles O35: by the law of the resolver, a jump writes PC and PHASE alone. -/
theorem jumpFrame : Obligations.JumpFrame := by
  intro a i s t hi ht
  obtain ⟨c, hc⟩ : ∃ c, exec i s = .next (resolve c a s) := by
    simp only [List.mem_cons, List.not_mem_nil, or_false] at hi
    rcases hi with rfl | rfl | rfl | rfl | rfl | rfl | rfl
    all_goals exact ⟨_, rfl⟩
  have hst := Host.Outcome.next.inj (ht.symm.trans hc)
  rw [resolve_eq] at hst
  rw [hst]
  refine ⟨rfl, rfl, rfl, rfl, rfl, rfl, rfl, fun sp b => ?_, rfl, rfl, rfl, rfl, rfl, rfl, ?_⟩
  · exact State.readByte_congr (by cases sp <;> rfl) rfl b
  · exact ite_eq_or_eq _ _ _

end Sys2Proof.Proofs
end

section
/-! Proofs of the statements about HLT, INP and OUT (spec/44_halt_io.md), and of the frames of the instructions
(spec/10_state.md R34). -/

namespace Sys2Proof.Machine

/-! ### One poll of a port -/

theorem execInp_of_never {s : State} (h : s.inPort = []) (x : Byte) : execInp x s = .next s := by
  simp [execInp, State.inRead, h]

theorem execInp_of_wait {s : State} {rest : List (Option Byte)} (h : s.inPort = none :: rest) (x : Byte) :
    execInp x s = .next { s with inPort := rest } := by
  simp [execInp, State.inRead, h]

theorem execInp_of_byte {s : State} {v : Byte} {rest : List (Option Byte)} (h : s.inPort = some v :: rest) (x : Byte) :
    execInp x s = .next { s with acc := v, inPort := rest, events := s.events ++ [.input v], phase := .fetch } := by
  rcases execInp_cases x s with ⟨h', -⟩ | ⟨rest', h', -⟩ | ⟨w, rest', h', e⟩ <;> cases h.symm.trans h'
  exact e

theorem execOut_of_never {s : State} (h : s.outPort = []) (x : Byte) : execOut x s = .next s := by
  simp [execOut, State.outWrite, h]

theorem execOut_of_wait {s : State} {rest : List Bool} (h : s.outPort = false :: rest) (x : Byte) :
    execOut x s = .next { s with outPort := rest } := by
  simp [execOut, State.outWrite, h]

theorem execOut_of_ready {s : State} {rest : List Bool} (h : s.outPort = true :: rest) (x : Byte) :
    execOut x s =
      .next { s with outPort := rest, events := s.events ++ [.output s.acc], phase := .fetch } := by
  rcases execOut_cases x s with ⟨h', -⟩ | ⟨rest', h', -⟩ | ⟨rest', h', e⟩ <;> cases h.symm.trans h'
  exact e

/-- In EXECUTE with a valid IR, the step is the meaning of the opcode whose byte IR holds. -/
theorem step_of_valid_ir {s : State} {o : Opcode} (hp : s.phase = .execute) (hv : s.ir.valid = true)
    (hop : s.ir.op = o.byte) : step s = exec (o.withOperand s.ir.operand) s := by
  have hir : s.ir = { valid := true, op := o.byte, operand := s.ir.operand } := by rw [← hv, ← hop]
  rw [step_of_execute hp, executePhase_of_instruction]
  rw [hir, InstrReg.instruction_of_byte]

/-- `in_req` is raised in EXECUTE of INP. -/
theorem step_of_inReq {s : State} (h : s.inReq = true) : step s = execInp s.ir.operand s := by
  simp only [State.inReq, Bool.and_eq_true, decide_eq_true_eq] at h
  obtain ⟨⟨hp, hv⟩, hop⟩ := h
  exact step_of_valid_ir hp hv hop

/-- `out_valid` is raised in EXECUTE of OUT. -/
theorem step_of_outValid {s : State} (h : s.outValid = true) : step s = execOut s.ir.operand s := by
  simp only [State.outValid, Bool.and_eq_true, decide_eq_true_eq] at h
  obtain ⟨⟨hp, hv⟩, hop⟩ := h
  exact step_of_valid_ir hp hv hop

/-! ### The event history -/

@[simp] theorem fetchPhase_events (s : State) : (fetchPhase s).events = s.events := by
  rcases fetchPhase_cases s with ⟨-, e⟩ | ⟨-, e⟩ <;> simp [e]

@[simp] theorem decodePhase_events (s : State) : (decodePhase s).events = s.events := by
  rcases decodePhase_cases s with ⟨-, e⟩ | ⟨-, -, e⟩ | ⟨-, -, e⟩ <;> simp [e]

/-- A host move leaves IR, FL and the event history: no host operation moves a byte over a port. -/
theorem State.hostMove_frame (s : State) :
    s.hostMove.ir = s.ir ∧ s.hostMove.fl = s.fl ∧ s.hostMove.events = s.events := by
  cases hc : s.commands with
  | nil => simp [State.hostMove_nil hc]
  | cons c rest =>
    rw [State.hostMove_cons hc]
    obtain ⟨-, hfl, hir, -, -, -, he, -⟩ := State.hostCommand_frame { s with commands := rest } c
    exact ⟨hir, hfl, he⟩

/-- R203: what an instruction adds to the event history. -/
theorem Effect.events_cases {i : Instr} {s t : State} (h : Effect i s t) :
    t.events = s.events ∨
    (∃ v, t.events = s.events ++ [.output v] ∧ v = s.acc ∧ s.outPort = true :: t.outPort ∧ t.inPort = s.inPort) ∨
    (∃ v, t.events = s.events ++ [.input v] ∧ v = t.acc ∧ s.inPort = some v :: t.inPort ∧ t.outPort = s.outPort) := by
  cases h with
  | output rest _ h => exact .inr (.inl ⟨s.acc, rfl, rfl, h, rfl⟩)
  | input v rest _ h => exact .inr (.inr ⟨v, rfl, rfl, h, rfl⟩)
  | _ => exact .inl rfl

/-! ### Frames (R34) -/

/-- A byte read sees only the byte at its address and the size of its space. -/
theorem State.readByte_congr_at {s t : State} {sp : Space} {a : Addr} (hc : t.cfg = s.cfg)
    (h : (t.mem sp).get a.toNat = (s.mem sp).get a.toNat) : t.readByte sp a = s.readByte sp a := by
  have hs : t.size sp = s.size sp := by cases sp <;> simp [hc]
  rw [State.readByte_eq, State.readByte_eq, h, hs]

/-- The bytes a program can read are those of the two memories. -/
theorem State.readByte_of_same_memories {s t : State} (hi : t.imem = s.imem) (hd : t.dmem = s.dmem)
    (hc : t.cfg = s.cfg) (sp : Space) (b : Addr) : t.readByte sp b = s.readByte sp b := by
  cases sp
  · exact State.readByte_congr (sp := .imem) hi hc b
  · exact State.readByte_congr (sp := .dmem) hd hc b

/-- The outcomes of ADD, SUB, MUL, DIV and LDA: a fault, or a byte into ACC. -/
theorem Effect.accumulator_cases {a : Byte} {i : Instr} {s t : State} (h : Effect i s t)
    (hi : i ∈ [Instr.add a, Instr.sub a, Instr.mul a, Instr.div a, Instr.lda a]) :
    (∃ k sp b, k ≠ FaultKind.noFault ∧ t = s.raise k sp b i.opcode.byte (some i.operand)) ∨
    (∃ v, t = { s with acc := v, phase := .fetch }) := by
  cases h with
  | dataFault => exact .inl ⟨_, _, _, by simp, rfl⟩
  | zeroDivisor => exact .inl ⟨_, _, _, by simp, rfl⟩
  | writeAcc v => exact .inr ⟨v, rfl⟩
  | jump p hj =>
    simp only [List.mem_cons, List.not_mem_nil, or_false] at hi
    rcases hi with rfl | rfl | rfl | rfl | rfl <;> simp [Instr.opcode, Opcode.byte] at hj
  | store e | halt e | inputNever e | inputWait _ e | input _ _ e | outputNever e | outputWait _ e | output _ e =>
    rw [e] at hi
    simp at hi

/-- HLT, INP and OUT write ACC, the control state, the port lists and the histories at most. -/
theorem exec_haltIo_frame {x : Byte} {i : Instr} {s t : State} (hi : i ∈ [Instr.hlt x, Instr.inp x, Instr.out x])
    (h : exec i s = .next t) :
    t = { s with acc := t.acc, running := t.running, phase := t.phase, inPort := t.inPort, outPort := t.outPort,
                 events := t.events, replies := t.replies } := by
  simp only [List.mem_cons, List.not_mem_nil, or_false] at hi
  rcases hi with rfl | rfl | rfl
  · cases h
    rfl
  · rcases execInp_cases x s with ⟨-, e⟩ | ⟨_, -, e⟩ | ⟨_, _, -, e⟩ <;> cases e.symm.trans h <;> rfl
  · rcases execOut_cases x s with ⟨-, e⟩ | ⟨_, -, e⟩ | ⟨_, -, e⟩ <;> cases e.symm.trans h <;> rfl

theorem exec_inp_frame {x : Byte} {s t : State} (h : exec (.inp x) s = .next t) :
    t.outPort = s.outPort ∧ t.running = s.running ∧ t.replies = s.replies := by
  rcases execInp_cases x s with ⟨-, e⟩ | ⟨_, -, e⟩ | ⟨_, _, -, e⟩ <;> cases e.symm.trans h <;> exact ⟨rfl, rfl, rfl⟩

theorem exec_out_frame {x : Byte} {s t : State} (h : exec (.out x) s = .next t) :
    t.acc = s.acc ∧ t.inPort = s.inPort ∧ t.running = s.running ∧ t.replies = s.replies := by
  rcases execOut_cases x s with ⟨-, e⟩ | ⟨_, -, e⟩ | ⟨_, -, e⟩ <;> cases e.symm.trans h <;> exact ⟨rfl, rfl, rfl, rfl⟩

end Sys2Proof.Machine

namespace Sys2Proof.Proofs

open Sys2Proof.Machine

/-- Settles O30: only the effects of INP and OUT touch the event history, each in its own case. -/
theorem portTransfersAreInOrder : Obligations.PortTransfersAreInOrder := by
  intro s t h
  cases hr : s.phase.isRunning with
  | false =>
    cases (step_of_stopped hr).symm.trans h
    obtain ⟨-, -, he⟩ := s.hostMove_frame
    exact .inl he
  | true =>
    rcases step_running_cases hr h with ⟨-, rfl⟩ | ⟨-, rfl⟩ | ⟨-, i, -, he⟩
    · exact .inl (fetchPhase_events s)
    · exact .inl (decodePhase_events s)
    · exact (exec_effect he).events_cases

/-- Settles O33: the instruction raises a fault or writes ACC, and both leave the rest. -/
theorem accumulatorInstructionsFrame : Obligations.AccumulatorInstructionsFrame := by
  intro a i s t hi ht
  rcases (exec_effect ht).accumulator_cases hi with ⟨k, sp, b, hk, rfl⟩ | ⟨v, rfl⟩
  · exact ⟨rfl, rfl, rfl, rfl, rfl, State.readByte_of_same_memories rfl rfl rfl, rfl, rfl, rfl, rfl,
      .inr ⟨rfl, rfl, rfl, hk⟩⟩
  · exact ⟨rfl, rfl, rfl, rfl, rfl, State.readByte_of_same_memories rfl rfl rfl, rfl, rfl, rfl, rfl,
      .inl ⟨rfl, rfl, rfl, rfl⟩⟩

/-- Settles O34: out of bounds STA is a `raise`, which keeps both memories; in bounds it writes DMEM at its address. -/
theorem storeFrame : Obligations.StoreFrame := by
  intro a s t ht
  rcases execSta_cases a s with ⟨-, e⟩ | ⟨-, e⟩ <;> cases e.symm.trans ht
  · have hread := State.readByte_of_same_memories (s := s)
      (t := s.raise .outOfBounds .dmem (zext32 a) 0x05#8 (some a)) rfl rfl rfl
    exact ⟨rfl, rfl, rfl, rfl, rfl, rfl, hread .imem, fun b _ => hread .dmem b, rfl, rfl, rfl, rfl,
      .inr ⟨rfl, rfl, rfl, hread .dmem _⟩⟩
  · refine ⟨rfl, rfl, rfl, rfl, rfl, rfl, State.readByte_congr rfl rfl, fun b hb => ?_, rfl, rfl, rfl, rfl,
      .inl ⟨rfl, rfl, rfl, rfl⟩⟩
    have hne : b.toNat ≠ a.toNat := fun h => hb (BitVec.eq_of_toNat_eq (h.trans (dataAddress_toNat a).symm))
    exact State.readByte_congr_at rfl (Memory.get_set_other _ _ hne)

/-- Settles O36: what the three have in common, then what each keeps besides. -/
theorem haltAndPortFrame : Obligations.HaltAndPortFrame := by
  intro x i s t hi ht
  have hframe := exec_haltIo_frame hi ht
  have hmem : ∀ sp b, t.readByte sp b = s.readByte sp b :=
    State.readByte_of_same_memories (by rw [hframe]) (by rw [hframe]) (by rw [hframe])
  refine ⟨by rw [hframe], by rw [hframe], by rw [hframe], by rw [hframe], by rw [hframe], by rw [hframe], hmem,
    by rw [hframe], ?_⟩
  simp only [List.mem_cons, List.not_mem_nil, or_false] at hi
  rcases hi with rfl | rfl | rfl
  · cases ht
    simp
  · obtain ⟨ho, hr, hy⟩ := exec_inp_frame ht
    simp [ho, hr, hy]
  · obtain ⟨ha, hi, hr, hy⟩ := exec_out_frame ht
    simp [ha, hi, hr, hy]

/-- Settles O25: the decoder's law at the byte of HLT, and its meaning, which is the halt. -/
theorem hltStopsTheMachine : Obligations.HltStopsTheMachine := fun x _ => ⟨decodeBytes_byte .hlt x, rfl⟩

/-- Settles O27: the decoder's law at the byte of INP, and its meaning where the poll is answered. -/
theorem inpTakesSuppliedByte : Obligations.InpTakesSuppliedByte := fun x _ _ _ h =>
  ⟨decodeBytes_byte .inp x, execInp_of_byte h x⟩

/-- Settles O28: the decoder's law at the byte of OUT, and its meaning where the host is ready. -/
theorem outSendsAcc : Obligations.OutSendsAcc := fun x _ _ h => ⟨decodeBytes_byte .out x, execOut_of_ready h x⟩

/-- Settles O29: a raised request is INP or OUT in EXECUTE, whose step is one poll. -/
theorem portWaitChangesNothingElse : Obligations.PortWaitChangesNothingElse := fun _ =>
  ⟨fun h => ⟨fun hp => (step_of_inReq h).trans (execInp_of_never hp _),
      fun _ hp => (step_of_inReq h).trans (execInp_of_wait hp _)⟩,
    fun h => ⟨fun hp => (step_of_outValid h).trans (execOut_of_never hp _),
      fun _ hp => (step_of_outValid h).trans (execOut_of_wait hp _)⟩⟩

end Sys2Proof.Proofs
end

section
/-! Proofs of the statements about the memories' writers and word accesses (spec/20_memory.md R54, R56). -/

namespace Sys2Proof.Machine

/-! ### The writers of a byte (R54) -/

/-- A byte read at the address of a byte write gives the written byte. -/
theorem State.readByte_writeByte_same {s t : State} {sp : Space} {a : Addr} {v : Byte}
    (h : s.writeByte sp a v = some t) : t.readByte sp a = some v := by
  obtain ⟨hlt, rfl⟩ := State.writeByte_eq_some.mp h
  exact State.readByte_eq_some.mpr ⟨by simpa using hlt, by simp⟩

/-- A byte write leaves every other address of its space. -/
theorem State.readByte_writeByte_other {s t : State} {sp : Space} {a b : Addr} {v : Byte}
    (h : s.writeByte sp a v = some t) (hb : b ≠ a) : t.readByte sp b = s.readByte sp b := by
  obtain ⟨-, rfl⟩ := State.writeByte_eq_some.mp h
  have hne : b.toNat ≠ a.toNat := fun e => hb (BitVec.eq_of_toNat_eq e)
  exact State.readByte_congr_at (by simp) (by simp [Memory.get_set_other _ _ hne])

@[simp] theorem fetchPhase_dmem (s : State) : (fetchPhase s).dmem = s.dmem := by
  rcases fetchPhase_cases s with ⟨-, e⟩ | ⟨-, e⟩ <;> simp [e]

@[simp] theorem decodePhase_dmem (s : State) : (decodePhase s).dmem = s.dmem := by
  rcases decodePhase_cases s with ⟨-, e⟩ | ⟨-, -, e⟩ | ⟨-, -, e⟩ <;> simp [e]

/-- STA alone writes DMEM, and no instruction writes IR. -/
theorem Effect.dmem_cases {i : Instr} {s t : State} (h : Effect i s t) :
    t.dmem = s.dmem ∨
      i = .sta i.operand ∧ t.ir = s.ir ∧ t.dmem = s.dmem.set i.operand.toNat s.acc := by
  cases h with
  | store hi => exact .inr ⟨hi, rfl, rfl⟩
  | _ => exact .inl rfl

/-- In a running phase a byte changes by the STA in IR alone, which stores ACC there. -/
theorem step_running_mem {s t : State} {sp : Space} {b : Nat} (hr : s.phase.isRunning = true) (h : step s = .next t)
    (hne : (t.mem sp).get b ≠ (s.mem sp).get b) :
    sp = .dmem ∧ ∃ a : Byte, t.ir.instruction = some (.sta a) ∧ b = (dataAddress a).toNat ∧ t.dmem.get b = s.acc := by
  cases sp with
  | imem => exact absurd (congrArg (Memory.get · b) (step_running_imem hr h)) hne
  | dmem =>
    refine ⟨rfl, ?_⟩
    rcases step_running_cases hr h with ⟨-, rfl⟩ | ⟨-, rfl⟩ | ⟨-, i, hi, he⟩
    · exact absurd (congrArg (Memory.get · b) (fetchPhase_dmem s)) hne
    · exact absurd (congrArg (Memory.get · b) (decodePhase_dmem s)) hne
    · rcases (exec_effect he).dmem_cases with hd | ⟨hsta, hir, hd⟩
      · exact absurd (congrArg (Memory.get · b) hd) hne
      · have hb : b = i.operand.toNat := by
          by_contra hb
          exact hne (by simp [hd, Memory.get_set_other _ _ hb])
        refine ⟨i.operand, ?_, by simpa using hb, by rw [hd, hb, Memory.get_set_same]⟩
        rw [hir, hi, ← hsta]

/-- A host operation that changes a memory is the load of that memory or a write to it. -/
theorem State.hostCommand_mem_writer {s : State} {c : HostCommand} {sp : Space}
    (h : (s.hostCommand c).mem sp ≠ s.mem sp) :
    (∃ image, sp = .imem ∧ c = .loadProgram image) ∨ (∃ image, sp = .dmem ∧ c = .loadData image) ∨
      (∃ a v, c = .write sp a v) ∨ (∃ a v, c = .writeWord sp a v) := by
  cases c with
  | loadProgram image =>
    cases sp with
    | imem => exact .inl ⟨image, rfl, rfl⟩
    | dmem =>
      refine absurd ?_ h
      rw [State.hostCommand, State.loadProgram]
      split <;> simp
  | loadData image =>
    cases sp with
    | dmem => exact .inr (.inl ⟨image, rfl, rfl⟩)
    | imem =>
      refine absurd ?_ h
      rw [State.hostCommand, State.loadData]
      split <;> simp
  | write sp' a v =>
    by_cases hsp : sp = sp'
    · exact .inr (.inr (.inl ⟨a, v, by rw [hsp]⟩))
    · refine absurd ?_ h
      rw [State.hostCommand, State.writeByte_eq]
      split
      · exact State.setMem_mem_of_ne s sp' sp _ hsp
      · rfl
  | writeWord sp' a w =>
    by_cases hsp : sp = sp'
    · exact .inr (.inr (.inr ⟨a, w, by rw [hsp]⟩))
    · refine absurd ?_ h
      rw [State.hostCommand, State.writeWord_eq]
      split
      · exact State.setMem_mem_of_ne s sp' sp _ hsp
      · rfl
  | start =>
    refine absurd ?_ h
    rw [State.hostCommand, State.start]
    split <;> rfl
  | getRegister | setPc | setAcc | getInstruction | getStatus | read | readWord => exact absurd rfl h

/-! ### Word accesses (R56) -/

/-- `v[15:8]` as a number. -/
theorem extractLsb'_high_eq_ofNat (w : HalfWord) : w.extractLsb' 8 8 = BitVec.ofNat 8 (w.toNat / 256) := by
  apply BitVec.eq_of_toNat_eq
  simp [BitVec.extractLsb'_toNat, Nat.shiftRight_eq_div_pow]

/-- `v[7:0]` as a number. -/
theorem extractLsb'_low_eq_ofNat (w : HalfWord) : w.extractLsb' 0 8 = BitVec.ofNat 8 (w.toNat % 256) := by
  apply BitVec.eq_of_toNat_eq
  simp [BitVec.extractLsb'_toNat]

theorem append_toNat_bigEndian (x y : Byte) : (x ++ y : HalfWord).toNat = x.toNat * 256 + y.toNat := by
  have hy := y.isLt
  rw [BitVec.toNat_append, ← Nat.shiftLeft_add_eq_or_of_lt hy, Nat.shiftLeft_eq]

/-- The two bytes of a word put together again. -/
theorem append_high_low (w : HalfWord) :
    (BitVec.ofNat 8 (w.toNat / 256) ++ BitVec.ofNat 8 (w.toNat % 256) : HalfWord) = w := by
  have hw := w.isLt
  apply BitVec.eq_of_toNat_eq
  rw [append_toNat_bigEndian, BitVec.toNat_ofNat, BitVec.toNat_ofNat]
  omega

/-- What a memory reads after a word write. -/
theorem Memory.get_set_word (m : Memory) (a : Nat) (x y : Byte) :
    ((m.set a x).set (a + 1) y).get a = x ∧ ((m.set a x).set (a + 1) y).get (a + 1) = y ∧
      ∀ b, b ≠ a → b ≠ a + 1 → ((m.set a x).set (a + 1) y).get b = m.get b := by
  refine ⟨?_, Memory.get_set_same _ _ _, fun b h h' => ?_⟩
  · rw [Memory.get_set_other _ _ (by omega), Memory.get_set_same]
  · rw [Memory.get_set_other _ _ h', Memory.get_set_other _ _ h]

end Sys2Proof.Machine

namespace Sys2Proof.Proofs

open Sys2Proof.Machine

/-- Settles O38: the read after a write; power-on lists nothing; and a step changes a byte by STA when it runs, by a
host operation that writes that memory when it does not. -/
theorem memoryChangesOnlyByItsWriters : Obligations.MemoryChangesOnlyByItsWriters := by
  refine ⟨fun s t sp a v h => ⟨State.readByte_writeByte_same h, fun b => State.readByte_writeByte_other h⟩,
    fun c sp b => by cases sp <;> rfl, fun s t sp b h hne => ?_⟩
  cases hr : s.phase.isRunning with
  | true => exact .inl ⟨rfl, step_running_mem hr h hne⟩
  | false =>
    cases (step_of_stopped hr).symm.trans h
    refine .inr ⟨rfl, ?_⟩
    cases hc : s.commands with
    | nil => exact absurd (by rw [State.hostMove_nil hc]) hne
    | cons c rest =>
      rw [State.hostMove_cons hc] at hne
      refine ⟨c, rest, rfl, State.hostCommand_mem_writer (s := { s with commands := rest }) fun e => hne ?_⟩
      rw [e]
      cases sp <;> rfl

/-- Settles O41: the two bytes of a word access are those of the word's number, high byte first. -/
theorem wordAccessIsBigEndian : Obligations.WordAccessIsBigEndian := by
  intro s sp a w h
  have hwrite := State.writeWord_eq_some (v := w).mpr ⟨h, rfl⟩
  have hread := (State.readWord_eq s sp a).trans (if_pos h)
  rw [extractLsb'_high_eq_ofNat, extractLsb'_low_eq_ofNat] at hwrite
  refine ⟨⟨_, hwrite, ?_⟩, ⟨_, hread, append_toNat_bigEndian _ _⟩⟩
  obtain ⟨hhigh, hlow, hother⟩ :=
    (s.mem sp).get_set_word a.toNat (BitVec.ofNat 8 (w.toNat / 256)) (BitVec.ofNat 8 (w.toNat % 256))
  simp only [State.setMem_mem, State.readWord_eq, State.setMem_size, h, if_true, hhigh, hlow, append_high_low, true_and]
  exact hother

end Sys2Proof.Proofs
end

section
/-! Proofs of the statements about faults (spec/60_exceptions.md). -/

namespace Sys2Proof.Machine

/-! ### FAULT and PHASE -/

/-- An instruction writes FAULT by a fault alone. -/
theorem Effect.fault_cases {i : Instr} {s t : State} (h : Effect i s t) :
    t.fault = s.fault ∨ t.phase = .faulted ∧ t.running = false ∧ t.fault.kind ≠ .noFault := by
  cases h with
  | dataFault => exact .inr ⟨rfl, rfl, by simp⟩
  | zeroDivisor => exact .inr ⟨rfl, rfl, by simp⟩
  | _ => exact .inl rfl

theorem fetchPhase_fault_cases (s : State) :
    (fetchPhase s).fault = s.fault ∨
      (fetchPhase s).phase = .faulted ∧ (fetchPhase s).running = false ∧ (fetchPhase s).fault.kind ≠ .noFault := by
  rcases fetchPhase_cases s with ⟨-, e⟩ | ⟨-, e⟩ <;> simp [e]

theorem decodePhase_fault_cases (s : State) :
    (decodePhase s).fault = s.fault ∨
      (decodePhase s).phase = .faulted ∧ (decodePhase s).running = false ∧ (decodePhase s).fault.kind ≠ .noFault := by
  rcases decodePhase_cases s with ⟨-, e⟩ | ⟨-, -, e⟩ | ⟨-, -, e⟩ <;> simp [e]

/-! ### The cycle at its faults -/

theorem cycle_of_fetch_outOfBounds {s : State} (hp : s.phase = .fetch) (hb : s.cfg.imemSize ≤ s.pc.toNat) :
    cycle s = .next (({ s with iaddr := s.pc } : State).raise .outOfBounds .imem (zext32 s.pc) 0x00#8 none) := by
  rcases cycle_fetch_cases hp with ⟨-, e⟩ | ⟨hlt, -⟩
  · exact e
  · omega

theorem cycle_of_operand_outOfBounds {s : State} (hp : s.phase = .fetch) (hlt : s.pc.toNat < s.cfg.imemSize)
    (hb : s.cfg.imemSize ≤ s.pc.toNat + 1) :
    cycle s = .next (s.fetched.raise .outOfBounds .imem (operandAddress s.pc) s.fetched.fl none) := by
  rcases cycle_fetch_cases hp with ⟨ho, -⟩ | ⟨-, e⟩
  · omega
  · rcases cycle_decode_cases (s := s.fetched) rfl with ⟨-, e'⟩ | ⟨hlt', -⟩ | ⟨hlt', -⟩
    · exact e.trans e'
    all_goals exact absurd hb (Nat.not_le_of_lt hlt')

theorem cycle_of_invalid_opcode {s : State} (hp : s.phase = .fetch) (hb : s.pc.toNat + 1 < s.cfg.imemSize)
    (hv : opcodeByteValid (s.imem.get s.pc.toNat) = false) :
    cycle s = .next (({ s.fetched with ir := InstrReg.empty } : State).raise .invalidOpcode .imem 0#32 s.fetched.fl
      (some (s.imem.get (s.pc.toNat + 1)))) := by
  rcases cycle_fetch_cases hp with ⟨ho, -⟩ | ⟨-, e⟩
  · omega
  · rcases cycle_decode_cases (s := s.fetched) rfl with ⟨ho, -⟩ | ⟨-, -, e'⟩ | ⟨-, hv', -⟩
    · exact absurd hb (Nat.not_lt_of_le ho)
    · exact e.trans e'
    · cases hv.symm.trans hv'

/-- With both bytes in bounds and a valid opcode byte, the cycle has the effect of the instruction they spell. -/
theorem cycle_effect {s t : State} (hp : s.phase = .fetch) (hb : s.pc.toNat + 1 < s.cfg.imemSize)
    (hv : opcodeByteValid (s.imem.get s.pc.toNat) = true) (h : cycle s = .next t) :
    ∃ i : Instr, i.opcode.byte = s.imem.get s.pc.toNat ∧ i.operand = s.imem.get (s.pc.toNat + 1) ∧
      Effect i s.fetched.decoded t := by
  obtain ⟨o, -, ho⟩ := decodeOpcode_of_valid hv
  have hop : (o.withOperand (s.imem.get (s.pc.toNat + 1))).opcode.byte = s.imem.get s.pc.toNat := by simpa using ho
  have hx := o.withOperand_operand (s.imem.get (s.pc.toNat + 1))
  obtain ⟨-, -, hs⟩ := step_decoded hop.symm hx.symm
  exact ⟨_, hop, hx, exec_effect (hs.symm.trans ((cycle_eq_step_decoded hp hb hv).symm.trans h))⟩

/-- The faults of EXECUTE. -/
theorem Effect.eq_raise_of_faulted {i : Instr} {s t : State} (h : Effect i s t) (hs : s.phase ≠ .faulted)
    (ht : t.phase = .faulted) :
    ∃ k sp a, t = s.raise k sp a i.opcode.byte (some i.operand) ∧
      (k = .outOfBounds ∧ sp = .dmem ∨ k = .divisionByZero) := by
  cases h with
  | dataFault => exact ⟨_, _, _, rfl, .inl ⟨rfl, rfl⟩⟩
  | zeroDivisor => exact ⟨_, _, _, rfl, .inr rfl⟩
  | inputNever | outputNever | inputWait | outputWait => exact absurd ht hs
  | writeAcc | store | jump | halt | input | output => cases ht

/-- HLT, INP and OUT have none of the bytes 0x01 to 0x06. -/
theorem opcode_byte_of_haltIo {i : Instr} (h : i = .hlt i.operand ∨ i = .inp i.operand ∨ i = .out i.operand) :
    0x06 < i.opcode.byte.toNat := by
  rcases h with h | h | h <;> rw [h] <;> simp [Instr.opcode, Opcode.byte]

/-- R230's data row: a data instruction with its operand out of bounds. -/
theorem Effect.eq_dataFault {i : Instr} {s t : State} (h : Effect i s t) (hi : i.opcode.byte.toNat ≤ 0x06)
    (hb : s.cfg.dmemSize ≤ i.operand.toNat) :
    t = s.raise .outOfBounds .dmem (zext32 i.operand) i.opcode.byte (some i.operand) := by
  cases h with
  | dataFault => rfl
  | zeroDivisor _ hlt => omega
  | writeAcc _ _ _ hlt => omega
  | store _ hlt => omega
  | jump _ hj => omega
  | halt e =>
    have := opcode_byte_of_haltIo (.inl e)
    omega
  | inputNever e | inputWait _ e | input _ _ e =>
    have := opcode_byte_of_haltIo (.inr (.inl e))
    omega
  | outputNever e | outputWait _ e | output _ e =>
    have := opcode_byte_of_haltIo (.inr (.inr e))
    omega

/-- Outside R230's rows for EXECUTE an instruction leaves PHASE out of FAULTED, and FAULT as it is. -/
theorem Effect.no_fault {i : Instr} {s t : State} (h : Effect i s t) (hs : s.phase ≠ .faulted)
    (hd : 0x06 < i.opcode.byte.toNat ∨ i.operand.toNat < s.cfg.dmemSize)
    (hz : i = .div i.operand → s.dmem.get i.operand.toNat ≠ 0x00#8) : t.phase ≠ .faulted ∧ t.fault = s.fault := by
  cases h with
  | dataFault hi hb => omega
  | zeroDivisor hi _ h0 => exact absurd h0 (hz hi)
  | inputNever | outputNever | inputWait | outputWait => exact ⟨hs, rfl⟩
  | writeAcc | store | jump | halt | input | output => exact ⟨by simp, rfl⟩

/-- R154: DIV of a zero byte in bounds. -/
theorem Effect.eq_zeroDivisor {i : Instr} {s t : State} (h : Effect i s t) (hi : i = .div i.operand)
    (hb : i.operand.toNat < s.cfg.dmemSize) (hz : s.dmem.get i.operand.toNat = 0x00#8) :
    t = s.raise .divisionByZero .imem 0#32 i.opcode.byte (some i.operand) := by
  have hbyte : i.opcode.byte.toNat = 4 := by rw [(Instr.opcode_byte_eq (o := .div)).mpr hi]; rfl
  cases h with
  | zeroDivisor => rfl
  | dataFault _ ho => omega
  | writeAcc _ _ _ _ hd => exact absurd hz (hd hi)
  | store e => cases hi.symm.trans e
  | jump _ hj => omega
  | halt e | inputNever e | inputWait _ e | input _ _ e | outputNever e | outputWait _ e | output _ e =>
    cases hi.symm.trans e

end Sys2Proof.Machine

namespace Sys2Proof.Proofs

open Sys2Proof.Machine

/-- Settles O43: FAULTED is a stopped phase, so its step is a host move, of which only `load_program` changes PHASE
there. -/
theorem faultedLastsUntilLoadProgram : Obligations.FaultedLastsUntilLoadProgram := by
  intro s hp
  have hs := step_of_stopped (s := s) (by rw [hp]; rfl)
  refine ⟨fun t h hne => ?leaves, fun t h hph => ?stays, fun rest hc => ?start, ⟨_, hs⟩⟩
  case leaves =>
    cases hs.symm.trans h
    rcases s.hostMove_control with ⟨e, -⟩ | ⟨e, -⟩ | ⟨-, hf, image, rest, hc, hl⟩
    · exact absurd (e.trans hp) hne
    · cases hp.symm.trans e
    · exact ⟨image, rest, hc, hl, hf⟩
  case stays =>
    cases hs.symm.trans h
    refine ⟨?_, s.hostMove_frame⟩
    rcases s.hostMove_control with ⟨-, e⟩ | ⟨e, -⟩ | ⟨e, -⟩
    · exact e
    · cases hp.symm.trans e
    · cases hph.symm.trans e
  case start =>
    rw [hs, State.hostMove_cons hc]
    simp [State.hostCommand, State.start, hp, State.reply]

/-- Settles O44: a running step writes FAULT by a fault alone, a host move by `load_program` alone. -/
theorem faultWrittenOnlyByFault : Obligations.FaultWrittenOnlyByFault := by
  intro s t h hne
  cases hr : s.phase.isRunning with
  | true =>
    have hcases : t.fault = s.fault ∨ t.phase = .faulted ∧ t.running = false ∧ t.fault.kind ≠ .noFault := by
      rcases step_running_cases hr h with ⟨-, rfl⟩ | ⟨-, rfl⟩ | ⟨-, i, -, he⟩
      · exact fetchPhase_fault_cases s
      · exact decodePhase_fault_cases s
      · exact (exec_effect he).fault_cases
    exact .inl ⟨rfl, hcases.resolve_left hne⟩
  | false =>
    cases (step_of_stopped hr).symm.trans h
    rcases s.hostMove_control with ⟨-, e⟩ | ⟨-, -, -, e, -⟩ | ⟨hl, hf, image, rest, hc, -⟩
    · exact absurd e hne
    · exact absurd e hne
    · exact .inr ⟨rfl, hl, hf, image, rest, hc⟩

/-- Settles O45: a cycle that ends in FAULTED is a `raise` on what FETCH and DECODE wrote before it. -/
theorem faultsArePrecise : Obligations.FaultsArePrecise := by
  intro s t hp h hph
  by_cases hb : s.pc.toNat + 1 < s.cfg.imemSize
  · have hlt : s.pc.toNat < s.cfg.imemSize := by omega
    cases hv : opcodeByteValid (s.imem.get s.pc.toNat) with
    | false =>
      cases (cycle_of_invalid_opcode hp hb hv).symm.trans h
      exact ⟨rfl, rfl, rfl, rfl, rfl, rfl, rfl, .inr ⟨hlt, rfl, rfl, rfl, .inr (.inl ⟨rfl, rfl⟩)⟩⟩
    | true =>
      obtain ⟨i, hop, -, he⟩ := cycle_effect hp hb hv h
      obtain ⟨k, sp, a, rfl, hk⟩ := he.eq_raise_of_faulted (by simp [State.decoded]) hph
      exact ⟨rfl, rfl, rfl, rfl, rfl, rfl, rfl, .inr ⟨hlt, rfl, rfl, hop, .inr (.inr ⟨rfl, hk⟩)⟩⟩
  · by_cases hlt : s.pc.toNat < s.cfg.imemSize
    · cases (cycle_of_operand_outOfBounds hp hlt (by omega)).symm.trans h
      exact ⟨rfl, rfl, rfl, rfl, rfl, rfl, rfl, .inr ⟨hlt, rfl, rfl, rfl, .inl ⟨rfl, rfl, rfl⟩⟩⟩
    · cases (cycle_of_fetch_outOfBounds hp (by omega)).symm.trans h
      exact ⟨rfl, rfl, rfl, rfl, rfl, rfl, rfl, .inl ⟨by omega, rfl, rfl, rfl, rfl⟩⟩

/-- Settles O46: the cycle at each fault, and the effect of the instruction where FETCH and DECODE do not fault. -/
theorem firstFaultInPhaseOrderIsReported : Obligations.FirstFaultInPhaseOrderIsReported := by
  intro s t hp h
  refine ⟨fun hb => ?fetch, fun hlt hb => ?operand, fun hb hv => ?opcode, fun hb hv hle ho => ?data,
    fun hb hdiv ho hz => ?divisor, fun hb hv hno => ?none⟩
  case fetch =>
    cases (cycle_of_fetch_outOfBounds hp hb).symm.trans h
    exact ⟨rfl, rfl, zext32_eq_ofNat _⟩
  case operand =>
    cases (cycle_of_operand_outOfBounds hp hlt hb).symm.trans h
    exact ⟨rfl, rfl, operandAddress_eq_ofNat _⟩
  case opcode =>
    cases (cycle_of_invalid_opcode hp hb hv).symm.trans h
    rfl
  case data =>
    obtain ⟨i, hop, hx, he⟩ := cycle_effect hp hb hv h
    rw [he.eq_dataFault (hop ▸ hle) (hx ▸ ho)]
    exact ⟨rfl, rfl⟩
  case divisor =>
    obtain ⟨i, hop, hx, he⟩ := cycle_effect hp hb (hdiv ▸ opcodeByteValid_byte .div) h
    rw [he.eq_zeroDivisor ((Instr.opcode_byte_eq (o := .div)).mp (hop.trans hdiv)) (hx ▸ ho) (hx ▸ hz)]
    rfl
  case none =>
    obtain ⟨i, hop, hx, he⟩ := cycle_effect hp hb hv h
    rw [← hop, ← hx] at hno
    refine he.no_fault (by simp [State.decoded]) (hno.imp_right And.left) fun hi => ?_
    have hbyte := (Instr.opcode_byte_eq (o := .div)).mpr hi
    rcases hno with hgt | ⟨-, hne | hnz⟩
    · rw [hbyte] at hgt
      exact absurd hgt (by simp [Opcode.byte])
    · exact absurd hbyte hne
    · exact hnz

/-- Settles O42: `raise` is that update, whether the operand was read or not. -/
theorem faultEntryWritesReportOnly : Obligations.FaultEntryWritesReportOnly := by
  intro s k sp a op x known
  cases known <;> rfl

end Sys2Proof.Proofs
end

section
/-! Proofs of the statements that compare two machines: the datapath driven by the control signals (spec/30_encoding.md
R88), a DMEM byte that is not granted (20_memory.md R61), the latches (10_state.md R33), and the host's list (D26). -/

namespace Sys2Proof.Machine

/-! ### The datapath, row by row (R88) -/

theorem memoryStage_of_no_access {c : ControlSignals} (hr : c.dmemRd = false) (hw : c.dmemWr = false)
    (ho : c.aluOp = none) (opc a : Byte) (s : State) : memoryStage c opc a s = .byte 0x00#8 := by
  simp [memoryStage, hr, hw, ho]

theorem memoryStage_of_outOfBounds {c : ControlSignals} (hc : c.dmemRd = true ∨ c.dmemWr = true) {a : Byte} {s : State}
    (h : s.cfg.dmemSize ≤ a.toNat) (opc : Byte) :
    memoryStage c opc a s = .trapped (s.raise .outOfBounds .dmem (zext32 a) opc (some a)) := by
  have hb : s.inBounds .dmem (dataAddress a) 1 = false := by simpa [State.inBounds_one] using h
  rw [memoryStage, hb, if_pos (by simpa using hc)]
  rfl

theorem memoryStage_of_inBounds {c : ControlSignals} {a : Byte} {s : State} (h : a.toNat < s.cfg.dmemSize)
    (hz : c.aluOp = some .div → s.dmem.get a.toNat ≠ 0x00#8) (opc : Byte) :
    memoryStage c opc a s = .byte (if c.dmemRd then s.dmem.get a.toNat else 0x00#8) := by
  have hb : s.inBounds .dmem (dataAddress a) 1 = true := by simpa [State.inBounds_one] using h
  rw [memoryStage, hb, if_neg (by simp), if_neg (by simpa using hz), dataAddress_toNat]

theorem memoryStage_of_zero_divisor {c : ControlSignals} {a : Byte} {s : State} (h : a.toNat < s.cfg.dmemSize)
    (hd : c.aluOp = some .div) (hz : s.dmem.get a.toNat = 0x00#8) (opc : Byte) :
    memoryStage c opc a s = .trapped (s.raise .divisionByZero .imem 0#32 opc (some a)) := by
  have hb : s.inBounds .dmem (dataAddress a) 1 = true := by simpa [State.inBounds_one] using h
  rw [memoryStage, hb, if_neg (by simp), if_pos (by simpa using ⟨hd, hz⟩)]
  rfl

theorem datapath_of_trapped {c : ControlSignals} {opc a : Byte} {s t : State}
    (h : memoryStage c opc a s = .trapped t) : datapath c opc a s = t := by
  rw [datapath, h]

/-- Signals that request no port go from the memory stage to the write-back. -/
theorem datapath_of_byte {c : ControlSignals} {opc a m : Byte} {s : State} (hi : c.inReq = false)
    (ho : c.outReq = false) (h : memoryStage c opc a s = .byte m) :
    datapath c opc a s = writeStage c a m 0x00#8 s := by
  simp [datapath, h, portStage, hi, ho]

/-- The rows of ADD, SUB and MUL. -/
theorem datapath_arithmetic {op : AluOp} (hop : op ≠ .div) (opc a : Byte) (s : State) :
    datapath (ControlSignals.arithmetic op) opc a s = executeAlu op opc a s := by
  rcases executeAlu_cases op opc a s with ⟨h, e⟩ | ⟨h, e⟩ <;> rw [e]
  · exact datapath_of_trapped (memoryStage_of_outOfBounds (.inl rfl) h opc)
  · have hz : (ControlSignals.arithmetic op).aluOp = some .div → s.dmem.get a.toNat ≠ 0x00#8 := fun hd =>
      absurd (Option.some.inj hd) hop
    rw [datapath_of_byte rfl rfl (memoryStage_of_inBounds h hz opc)]
    rfl

/-- The row of DIV, whose write-enable is the datapath's. -/
theorem datapath_div (a : Byte) (s : State) :
    execDiv a s = .next (datapath (ControlSignals.arithmetic .div) Opcode.div.byte a s) := by
  rcases execDiv_cases a s with ⟨h, e⟩ | ⟨h, hz, e⟩ | ⟨h, hz, e⟩ <;> rw [e]
  · rw [datapath_of_trapped (memoryStage_of_outOfBounds (.inl rfl) h _)]
    rfl
  · rw [datapath_of_trapped (memoryStage_of_zero_divisor h rfl hz _)]
    rfl
  · rw [datapath_of_byte rfl rfl (memoryStage_of_inBounds h (fun _ => hz) _)]
    rfl

/-- The row of STA. -/
theorem datapath_sta (a : Byte) (s : State) :
    execSta a s = .next (datapath { ControlSignals.idle with dmemWr := true } Opcode.sta.byte a s) := by
  rcases execSta_cases a s with ⟨h, e⟩ | ⟨h, e⟩ <;> rw [e]
  · rw [datapath_of_trapped (memoryStage_of_outOfBounds (.inr rfl) h _)]
    rfl
  · rw [datapath_of_byte rfl rfl (memoryStage_of_inBounds h (by simp [ControlSignals.idle]) _), ← dataAddress_toNat a]
    rfl

/-- The row of LDA. -/
theorem datapath_lda (a : Byte) (s : State) :
    execLda a s = .next (datapath
      { ControlSignals.idle with dmemRd := true, accWe := true, accSrc := some .dmem } Opcode.lda.byte a s) := by
  rcases execLda_cases a s with ⟨h, e⟩ | ⟨h, e⟩ <;> rw [e]
  · rw [datapath_of_trapped (memoryStage_of_outOfBounds (.inl rfl) h _)]
    rfl
  · rw [datapath_of_byte rfl rfl (memoryStage_of_inBounds h (by simp [ControlSignals.idle]) _)]
    rfl

/-- The rows of the jumps. -/
theorem datapath_jump (c : JumpCond) (opc a : Byte) (s : State) :
    datapath (ControlSignals.jump c) opc a s = resolve c a s := by
  rw [datapath_of_byte rfl rfl (memoryStage_of_no_access rfl rfl rfl opc a s)]
  rfl

/-- The row of HLT. -/
theorem datapath_hlt (opc a : Byte) (s : State) :
    datapath { ControlSignals.idle with halt := true } opc a s = s.halt := by
  rw [datapath_of_byte rfl rfl (memoryStage_of_no_access rfl rfl rfl opc a s)]
  rfl

/-- The row of INP, with the poll that its request makes. -/
theorem datapath_inp (opc a : Byte) (s : State) :
    execInp a s = .next (datapath
      { ControlSignals.idle with accWe := true, accSrc := some .input, inReq := true } opc a s) := by
  have hmem := memoryStage_of_no_access
    (c := { ControlSignals.idle with accWe := true, accSrc := some .input, inReq := true }) rfl rfl rfl opc a s
  rw [execInp, datapath, hmem]
  rcases s.inRead_cases with ⟨-, e⟩ | ⟨_, -, e⟩ | ⟨_, _, -, e⟩ <;> simp only [portStage, if_true, e]
  rfl

/-- The row of OUT, with the poll that its request makes. -/
theorem datapath_out (opc a : Byte) (s : State) :
    execOut a s = .next (datapath { ControlSignals.idle with outReq := true } opc a s) := by
  have hmem := memoryStage_of_no_access (c := { ControlSignals.idle with outReq := true }) rfl rfl rfl opc a s
  rw [execOut, datapath, hmem]
  rcases s.outWrite_cases s.acc with ⟨-, e⟩ | ⟨_, -, e⟩ | ⟨_, -, e⟩ <;>
    simp only [portStage, ControlSignals.idle, Bool.false_eq_true, if_false, if_true, e]
  rfl

/-- R88: where the decoder has signals, the datapath does what the instruction's rule says. -/
theorem exec_eq_datapath {i : Instr} {c : ControlSignals} (h : controlSignals i.opcode = some c) (s : State) :
    exec i s = .next (datapath c i.opcode.byte i.operand s) := by
  cases i with
  | add a | sub a | mul a =>
    cases h
    exact congrArg Host.Outcome.next (datapath_arithmetic (by simp) _ a s).symm
  | div a =>
    cases h
    exact datapath_div a s
  | sta a =>
    cases h
    exact datapath_sta a s
  | lda a =>
    cases h
    exact datapath_lda a s
  | jmp a | jeq a | jne a | jgt a | jlt a | jz a | jnz a =>
    cases h
    exact congrArg Host.Outcome.next (datapath_jump _ _ a s).symm
  | hlt a =>
    cases h
    exact congrArg Host.Outcome.next (datapath_hlt _ a s).symm
  | inp a =>
    cases h
    exact datapath_inp _ a s
  | out a =>
    cases h
    exact datapath_out _ a s
  | dat a => cases h

/-! ### What an instruction does not look at -/

/-- The state with another DMEM and another list of host operations. -/
def State.withOutside (s : State) (m : Memory) (cs : List HostCommand) : State := { s with dmem := m, commands := cs }

theorem executeAlu_withOutside {op : AluOp} {opc a : Byte} {s : State} {m : Memory}
    (hm : m.get a.toNat = s.dmem.get a.toNat) (cs : List HostCommand) :
    executeAlu op opc a (s.withOutside m cs) = (executeAlu op opc a s).withOutside m cs := by
  rcases executeAlu_cases op opc a s with ⟨h, e⟩ | ⟨h, e⟩ <;> rw [e]
  · exact executeAlu_of_outOfBounds (s := s.withOutside m cs) op opc h
  · rw [executeAlu_of_inBounds (s := s.withOutside m cs) op opc h, ← hm]
    rfl

theorem resolve_withOutside (c : JumpCond) (a : Byte) (s : State) (m : Memory) (cs : List HostCommand) :
    resolve c a (s.withOutside m cs) = (resolve c a s).withOutside m cs := by
  rw [resolve_eq, resolve_eq]
  rfl

theorem execInp_withOutside {a : Byte} {s t : State} (h : execInp a s = .next t) (m : Memory) (cs : List HostCommand) :
    execInp a (s.withOutside m cs) = .next (t.withOutside m cs) := by
  rcases execInp_cases a s with ⟨hp, e⟩ | ⟨rest, hp, e⟩ | ⟨v, rest, hp, e⟩ <;> cases e.symm.trans h
  · exact execInp_of_never (s := s.withOutside m cs) hp a
  · exact execInp_of_wait (s := s.withOutside m cs) hp a
  · exact execInp_of_byte (s := s.withOutside m cs) hp a

theorem execOut_withOutside {a : Byte} {s t : State} (h : execOut a s = .next t) (m : Memory) (cs : List HostCommand) :
    execOut a (s.withOutside m cs) = .next (t.withOutside m cs) := by
  rcases execOut_cases a s with ⟨hp, e⟩ | ⟨rest, hp, e⟩ | ⟨rest, hp, e⟩ <;> cases e.symm.trans h
  · exact execOut_of_never (s := s.withOutside m cs) hp a
  · exact execOut_of_wait (s := s.withOutside m cs) hp a
  · exact execOut_of_ready (s := s.withOutside m cs) hp a

theorem execDiv_withOutside {a : Byte} {s t : State} {m : Memory} (h : execDiv a s = .next t)
    (hm : m.get a.toNat = s.dmem.get a.toNat) (cs : List HostCommand) :
    execDiv a (s.withOutside m cs) = .next (t.withOutside m cs) := by
  rcases execDiv_cases a s with ⟨hb, e⟩ | ⟨hb, hz, e⟩ | ⟨hb, hz, e⟩ <;> cases e.symm.trans h
  · exact execDiv_of_outOfBounds (s := s.withOutside m cs) hb
  · exact execDiv_of_zero (s := s.withOutside m cs) hb (hm.trans hz)
  · rw [← hm] at hz ⊢
    exact execDiv_of_divisor (s := s.withOutside m cs) hb hz

theorem execLda_withOutside {a : Byte} {s t : State} {m : Memory} (h : execLda a s = .next t)
    (hm : m.get a.toNat = s.dmem.get a.toNat) (cs : List HostCommand) :
    execLda a (s.withOutside m cs) = .next (t.withOutside m cs) := by
  rcases execLda_cases a s with ⟨hb, e⟩ | ⟨hb, e⟩ <;> cases e.symm.trans h
  · exact execLda_of_outOfBounds (s := s.withOutside m cs) hb
  · rw [← hm]
    exact execLda_of_inBounds (s := s.withOutside m cs) hb

/-- An instruction other than STA looks at no DMEM byte but the one it reads, and at no host operation. -/
theorem exec_withOutside {i : Instr} {s t : State} {m : Memory} (h : exec i s = .next t) (hi : i ≠ .sta i.operand)
    (hm : ∀ a, executeAccess i = some (.dmemRead a) → m.get a.toNat = s.dmem.get a.toNat) (cs : List HostCommand) :
    exec i (s.withOutside m cs) = .next (t.withOutside m cs) := by
  cases i with
  | add a | sub a | mul a =>
    cases h
    exact congrArg Host.Outcome.next (executeAlu_withOutside (dataAddress_toNat a ▸ hm _ rfl) cs)
  | div a => exact execDiv_withOutside h (dataAddress_toNat a ▸ hm _ rfl) cs
  | sta a => exact absurd rfl hi
  | lda a => exact execLda_withOutside h (dataAddress_toNat a ▸ hm _ rfl) cs
  | jmp a | jeq a | jne a | jgt a | jlt a | jz a | jnz a =>
    cases h
    exact congrArg Host.Outcome.next (resolve_withOutside _ a s m cs)
  | hlt a =>
    cases h
    rfl
  | inp a => exact execInp_withOutside (a := a) h m cs
  | out a => exact execOut_withOutside (a := a) h m cs
  | dat a => cases h

/-- No instruction touches the host's list. -/
theorem Effect.commands_eq {i : Instr} {s t : State} (h : Effect i s t) : t.commands = s.commands := by
  cases h <;> rfl

/-- An instruction other than STA, with another DMEM that has the byte it reads. -/
theorem exec_withDmem {i : Instr} {s t : State} {m : Memory} (h : exec i s = .next t) (hi : i ≠ .sta i.operand)
    (hm : ∀ a, executeAccess i = some (.dmemRead a) → m.get a.toNat = s.dmem.get a.toNat) :
    exec i { s with dmem := m } = .next { t with dmem := m } := by
  refine (exec_withOutside h hi hm s.commands).trans ?_
  rw [← (exec_effect h).commands_eq]
  rfl

theorem execSta_withCommands {a : Byte} {s t : State} (h : execSta a s = .next t) (cs : List HostCommand) :
    execSta a { s with commands := cs } = .next { t with commands := cs } := by
  rcases execSta_cases a s with ⟨hb, e⟩ | ⟨hb, e⟩ <;> cases e.symm.trans h
  · exact execSta_of_outOfBounds (s := { s with commands := cs }) hb
  · exact execSta_of_inBounds (s := { s with commands := cs }) hb

/-- Any instruction, with another list of host operations. -/
theorem exec_withCommands {i : Instr} {s t : State} (h : exec i s = .next t) (cs : List HostCommand) :
    exec i { s with commands := cs } = .next { t with commands := cs } := by
  by_cases hi : i = .sta i.operand
  · rw [hi] at h ⊢
    exact execSta_withCommands h cs
  · have hd : t.dmem = s.dmem := (exec_effect h).dmem_cases.resolve_right fun hs => hi hs.1
    refine (exec_withOutside h hi (m := s.dmem) (fun _ _ => rfl) cs).trans ?_
    rw [← hd]
    rfl

theorem fetchPhase_withCommands (s : State) (cs : List HostCommand) :
    fetchPhase { s with commands := cs } = { fetchPhase s with commands := cs } := by
  rcases fetchPhase_cases s with ⟨h, e⟩ | ⟨h, e⟩ <;> rw [e]
  · exact fetchPhase_of_outOfBounds (s := { s with commands := cs }) h
  · exact fetchPhase_of_inBounds (s := { s with commands := cs }) h

theorem decodePhase_withCommands (s : State) (cs : List HostCommand) :
    decodePhase { s with commands := cs } = { decodePhase s with commands := cs } := by
  rcases decodePhase_cases s with ⟨h, e⟩ | ⟨h, hv, e⟩ | ⟨h, hv, e⟩ <;> rw [e]
  · exact decodePhase_of_outOfBounds (s := { s with commands := cs }) h
  · exact decodePhase_of_invalid (s := { s with commands := cs }) h hv
  · exact decodePhase_of_valid (s := { s with commands := cs }) h hv

/-- A running step does the same with any list of host operations. -/
theorem step_withCommands {s t : State} (hr : s.phase.isRunning = true) (h : step s = .next t)
    (cs : List HostCommand) : step { s with commands := cs } = .next { t with commands := cs } := by
  rcases step_running_cases hr h with ⟨hp, rfl⟩ | ⟨hp, rfl⟩ | ⟨hp, i, hi, he⟩
  · exact (step_of_fetch (s := { s with commands := cs }) hp).trans (congrArg Host.Outcome.next (fetchPhase_withCommands s cs))
  · exact (step_of_decode (s := { s with commands := cs }) hp).trans (congrArg Host.Outcome.next (decodePhase_withCommands s cs))
  · rw [step_of_execute (s := { s with commands := cs }) hp,
      executePhase_of_instruction (s := { s with commands := cs }) hi]
    exact exec_withCommands he cs

/-- A cycle that ends outside FAULTED goes through FETCH and DECODE. -/
theorem cycle_of_not_faulted {s t : State} (hp : s.phase = .fetch) (h : cycle s = .next t) (ht : t.phase ≠ .faulted) :
    s.pc.toNat + 1 < s.cfg.imemSize ∧ opcodeByteValid (s.imem.get s.pc.toNat) = true := by
  by_cases hb : s.pc.toNat + 1 < s.cfg.imemSize
  · refine ⟨hb, ?_⟩
    by_contra hv
    cases (cycle_of_invalid_opcode hp hb (by simpa using hv)).symm.trans h
    exact ht rfl
  · by_cases hlt : s.pc.toNat < s.cfg.imemSize
    · cases (cycle_of_operand_outOfBounds hp hlt (by omega)).symm.trans h
      exact absurd rfl ht
    · cases (cycle_of_fetch_outOfBounds hp (by omega)).symm.trans h
      exact absurd rfl ht

end Sys2Proof.Machine

namespace Sys2Proof.Proofs

open Sys2Proof.Machine

/-- Settles O50: row by row of the table; DAT alone has no row. -/
theorem controlSignalsAgreeWithInstructionRules : Obligations.ControlSignalsAgreeWithInstructionRules := by
  refine fun i s => ⟨fun c h => exec_eq_datapath h s, ?_⟩
  cases i <;> simp [controlSignals, Instr.opcode]

/-- Settles O51: STA does the same to its own byte; every other instruction keeps DMEM and looks at its granted byte
alone. -/
theorem executeTouchesOnlyGrantedByte : Obligations.ExecuteTouchesOnlyGrantedByte := by
  intro i s t b v hread hwrite h
  by_cases hi : i = .sta i.operand
  · have hne : b.toNat ≠ i.operand.toNat := by
      intro e
      refine hwrite ?_
      rw [hi, BitVec.eq_of_toNat_eq (e.trans (dataAddress_toNat _).symm)]
      rfl
    rw [hi] at h ⊢
    rcases execSta_cases i.operand s with ⟨hb, e⟩ | ⟨hb, e⟩ <;> cases e.symm.trans h
    · exact ⟨s.dmem.set b.toNat v, execSta_of_outOfBounds (s := { s with dmem := s.dmem.set b.toNat v }) hb,
        Memory.get_set_same _ _ _, rfl, fun a ha => Memory.get_set_other _ _ ha⟩
    · refine ⟨(s.dmem.set b.toNat v).set i.operand.toNat s.acc,
        execSta_of_inBounds (s := { s with dmem := s.dmem.set b.toNat v }) hb, ?_, Memory.get_set_other _ _ hne,
        fun a ha => ?_⟩
      · rw [Memory.get_set_other _ _ hne, Memory.get_set_same]
      · simp [Memory.get_set, ha]
  · have hd : t.dmem = s.dmem := (exec_effect h).dmem_cases.resolve_right fun hs => hi hs.1
    refine ⟨s.dmem.set b.toNat v, exec_withDmem h hi fun a ha => ?_, Memory.get_set_same _ _ _, by rw [hd],
      fun a ha => by rw [hd, Memory.get_set_other _ _ ha]⟩
    exact Memory.get_set_other _ _ fun e => hread (BitVec.eq_of_toNat_eq e ▸ ha)

/-- Settles O52: where FETCH and DECODE do not fault they write all three latches, and the cycle ends in a step from the
state that they leave. -/
theorem latchesAreHiddenFromPrograms : Obligations.LatchesAreHiddenFromPrograms := by
  intro s t f x r hp h ht
  obtain ⟨hb, hv⟩ := cycle_of_not_faulted hp h ht
  rw [cycle_eq_step_decoded hp hb hv] at h
  exact (cycle_eq_step_decoded (s := { s with fl := f, iaddr := x, ir := r }) hp hb hv).trans h

/-- Settles O53: a running step neither looks at the list nor writes it. -/
theorem hostOperationsWaitWhileRunning : Obligations.HostOperationsWaitWhileRunning := by
  intro s t cs hr h
  refine ⟨?_, step_withCommands hr h cs⟩
  have hself := Host.Outcome.next.inj (h.symm.trans (step_withCommands hr h s.commands))
  rw [hself]

end Sys2Proof.Proofs
end

section
/-! Proofs of the statements about power-on and the host's operations on a stopped machine
(spec/70_reset_and_hazards.md, 10_state.md R33, 60_exceptions.md R243). -/

namespace Sys2Proof.Machine

/-- A stopped machine carries out the host's next operation. -/
theorem step_of_command {s : State} {c : HostCommand} {rest : List HostCommand} (hs : s.phase.isRunning = false)
    (hc : s.commands = c :: rest) : step s = .next (({ s with commands := rest } : State).hostCommand c) := by
  rw [step_of_stopped hs, State.hostMove_cons hc]

/-- R243: with no host operation left, a stopped machine stays as it is. -/
theorem step_of_no_command {s : State} (hs : s.phase.isRunning = false) (hc : s.commands = []) : step s = .next s := by
  rw [step_of_stopped hs, State.hostMove_nil hc]

theorem State.loadProgram_of_fits {s : State} {image : List Byte} (h : image.length ≤ s.cfg.imemSize) :
    s.loadProgram image = { s with
      imem := s.imem.load 0 image, pc := 0x00#8, running := false, phase := .loaded, fault := FaultRecord.clear,
      replies := s.replies ++ [.ok] } := by
  rw [State.loadProgram, if_pos (by simpa [imageFits] using h)]
  rfl

theorem State.loadProgram_of_too_long {s : State} {image : List Byte} (h : s.cfg.imemSize < image.length) :
    s.loadProgram image = s.reply (.outOfBounds .imem (sizeAddress s.cfg.imemSize)) := by
  rw [State.loadProgram, if_neg (by simpa [imageFits] using h)]

theorem State.loadData_of_fits {s : State} {image : List Byte} (h : image.length ≤ s.cfg.dmemSize) :
    s.loadData image = { s with dmem := s.dmem.load 0 image, replies := s.replies ++ [.ok] } := by
  rw [State.loadData, if_pos (by simpa [imageFits] using h)]
  rfl

theorem State.loadData_of_too_long {s : State} {image : List Byte} (h : s.cfg.dmemSize < image.length) :
    s.loadData image = s.reply (.outOfBounds .dmem (sizeAddress s.cfg.dmemSize)) := by
  rw [State.loadData, if_neg (by simpa [imageFits] using h)]

/-- What a memory reads after an image is loaded at 0. -/
theorem Memory.get_load_zero (m : Memory) (image : List Byte) :
    (∀ (k : Nat) (h : k < image.length), (m.load 0 image).get k = image[k]) ∧
      ∀ k, image.length ≤ k → (m.load 0 image).get k = m.get k := by
  refine ⟨fun k h => ?_, fun k h => m.get_load_other 0 image (.inr (by omega))⟩
  simpa using m.get_load_image 0 image h

/-- What a state reads after a write through `setMem`, in both spaces. -/
theorem State.setMem_set_get (s : State) (sp : Space) (a : Nat) (v : Byte) :
    ((s.setMem sp ((s.mem sp).set a v)).mem sp).get a = v ∧
      ∀ (sp' : Space) (k : Nat), sp' ≠ sp ∨ k ≠ a →
        ((s.setMem sp ((s.mem sp).set a v)).mem sp').get k = (s.mem sp').get k := by
  refine ⟨by simp, fun sp' k h => ?_⟩
  by_cases hsp : sp' = sp
  · subst hsp
    rw [State.setMem_mem, Memory.get_set_other _ _ (h.resolve_left (not_not_intro rfl))]
  · rw [State.setMem_mem_of_ne s sp sp' _ hsp]

theorem State.hostCommand_write_of_inBounds {s : State} {sp : Space} {a : Addr} (v : Byte) (h : a.toNat < s.size sp) :
    s.hostCommand (.write sp a v) = (s.setMem sp ((s.mem sp).set a.toNat v)).reply .ok := by
  rw [State.hostCommand, State.writeByte_eq_some.mpr ⟨h, rfl⟩]
  rfl

end Sys2Proof.Machine

namespace Sys2Proof.Proofs

open Sys2Proof.Machine

/-- Settles O54: both memories list nothing at power-on, and an unlisted address reads 0x00. -/
theorem powerOnState : Obligations.PowerOnState := by
  refine fun c => ⟨rfl, rfl, rfl, rfl, rfl, rfl, rfl, rfl, fun sp a h => ?_, Config.default, rfl⟩
  exact State.readByte_eq_some.mpr ⟨h, by cases sp <;> rfl⟩

/-- Settles O55: `load_program` by whether the image fits, and what IMEM reads after the load. -/
theorem loadProgramFillsImem : Obligations.LoadProgramFillsImem := by
  intro s image rest hs hc
  have hstep := step_of_command hs hc
  refine ⟨fun h => ⟨s.imem.load 0 image, hstep.trans ?_, s.imem.get_load_zero image⟩, fun h => hstep.trans ?_⟩
  · exact congrArg Host.Outcome.next (State.loadProgram_of_fits (s := { s with commands := rest }) h)
  · exact congrArg Host.Outcome.next (State.loadProgram_of_too_long (s := { s with commands := rest }) h)

/-- Settles O56: `load_data` by whether the image fits, and what DMEM reads after the load. -/
theorem loadDataFillsDmem : Obligations.LoadDataFillsDmem := by
  intro s image rest hs hc
  have hstep := step_of_command hs hc
  refine ⟨fun h => ⟨s.dmem.load 0 image, hstep.trans ?_, s.dmem.get_load_zero image⟩, fun h => hstep.trans ?_⟩
  · exact congrArg Host.Outcome.next (State.loadData_of_fits (s := { s with commands := rest }) h)
  · exact congrArg Host.Outcome.next (State.loadData_of_too_long (s := { s with commands := rest }) h)

/-- Settles O57: `start()` is a host operation in each of the three stopped phases, and PHASE selects its case. -/
theorem startRunsALoadedMachine : Obligations.StartRunsALoadedMachine := by
  intro s rest hc
  refine ⟨fun hp => ?_, fun hp => ?_, fun hp => ?_⟩
  all_goals
    rw [step_of_command (by rw [hp]; rfl) hc]
    simp [State.hostCommand, State.start, hp, State.setControl, State.reply]

/-- Settles O58: each operation is one step of the stopped machine, by its own equation. -/
theorem hostInspectsAStoppedMachine : Obligations.HostInspectsAStoppedMachine := by
  intro s rest b sp a hs
  refine ⟨step_of_command hs, step_of_command hs, step_of_command hs, step_of_command hs, fun hc hv => ?emptyIr,
    fun i hc hir => ?validIr, step_of_command hs, step_of_command hs, step_of_command hs, fun hc h => ?read,
    fun hc h => ?write, fun w hc h => ?readWord, fun w t hc h => ?writeWord⟩
  all_goals rw [step_of_command hs hc]
  case emptyIr =>
    have hi : s.ir.instruction = none := by simp [InstrReg.instruction, hv]
    simp [State.hostCommand, State.reply, hi]
  case validIr =>
    have hi : s.ir.instruction = some i := by rw [hir, InstrReg.instruction_of_byte, Instr.opcode_withOperand]
    simp [State.hostCommand, State.reply, hi]
  case read =>
    have hr : ({ s with commands := rest } : State).readByte sp a = some ((s.mem sp).get a.toNat) := by
      rw [← State.readByte_eq_some.mpr ⟨h, rfl⟩]
      exact State.readByte_of_same_memories rfl rfl rfl sp a
    simp [State.hostCommand, State.reply, hr, readReply]
  case write =>
    have hb : a.toNat < ({ s with commands := rest } : State).size sp := by cases sp <;> exact h
    obtain ⟨hsame, hother⟩ := State.setMem_set_get { s with commands := rest } sp a.toNat b
    rw [State.hostCommand_write_of_inBounds b hb]
    refine ⟨_, rfl, by simp, hsame, fun sp' k hk => (hother sp' k hk).trans ?_, by cases sp <;> rfl⟩
    cases sp' <;> rfl
  case readWord =>
    have hr : ({ s with commands := rest } : State).readWord sp a = some w := by
      rw [← h]
      cases sp <;> rfl
    simp [State.hostCommand, State.reply, hr, readWordReply]
  case writeWord =>
    obtain ⟨hb, rfl⟩ := State.writeWord_eq_some.mp h
    have hb' : a.toNat + 1 < ({ s with commands := rest } : State).size sp := by cases sp <;> exact hb
    have hw := State.writeWord_eq_some (v := w).mpr ⟨hb', rfl⟩
    rw [State.hostCommand, hw]
    cases sp <;> rfl

/-- Settles O59: by induction on the number of steps, each of which leaves the state as it is. -/
theorem stoppedStatesKeepEverything : Obligations.StoppedStatesKeepEverything := by
  intro s n hs hc
  induction n with
  | zero => rfl
  | succ n ih => exact (run_succ (step_of_no_command hs hc) n).trans ih

end Sys2Proof.Proofs
end
